-- ==== Sys2Proof/Word.lean ====
section
/-! DEFINITION. The widths of HUFFENC (spec/00_scope.md R5 to R8): bytes, 32-bit bus words and
registers, 64-bit totals, 12-bit register offsets, bit strings, and tables with one entry per
byte value. -/

namespace Sys2Proof

/-- One byte value 0 to 255 (R8). -/
abbrev Byte := BitVec 8

/-- A 32-bit register, command word or bus word (R5: REG_W, CMD_W, COUNT_W). -/
abbrev Word := BitVec 32

/-- A 64-bit total (R5: TOTAL_W). -/
abbrev DWord := BitVec 64

/-- A byte offset in the register space, 0x000 to 0xFFF (R5: ADDR_W). -/
abbrev Offset := BitVec 12

/-- A finite sequence of bits; the head is the first bit (R7). -/
abbrev Bits := List Bool

/-- A table with one entry for each byte value 0 to 255 (R9: `T[b]`). -/
abbrev Table (α : Type) := Vector α 256

end Sys2Proof
end

