-- ==== Sys2Proof/Config.lean ====
section
/-! DEFINITION. The parameters of HUFFENC (spec/00_scope.md R5, spec/10_state.md R34). The spec fixes
every one of them (spec/93_implementation_defined.md, section 4: the model has no parameters), so none
is left open and there is no free value. -/

namespace Sys2Proof.Config

/-- MAX_CODE_LEN: the longest code a header entry can hold (R5). -/
def maxCodeLen : Nat := 255

/-- MAX_INPUT_LEN: the most bytes one run can count, 2^32 - 1 (R5). -/
def maxInputLen : Word := 0xFFFFFFFF#32

/-- The largest value of the header's first byte, NSYM - 1 (R225: `NSYM - 1 > 255`). -/
def maxHeaderCount : Nat := 255

/-- The constant register ID: "HUF" in bits 31 to 8 and the interface version 1 in bits 7 to 0 (R34). -/
def idWord : Word := 0x48554601#32

end Sys2Proof.Config
end

