-- ==== Sys2Proof/Syntax.lean ====
section
/-! DEFINITION. The seven commands of HUFFENC (spec/30_encoding.md R92), the ways a word fails to be
one (R95), and the assembler's pseudo-instructions (R97). -/

namespace Sys2Proof

/-- A command, one constructor per row of spec/opcode_table.json. COUNT and PACK carry the operand
DATA, a byte value taken as it stands (R93). -/
inductive Instr where
  | nop
  | start
  | count (d : Byte)
  | build
  | pack (d : Byte)
  | finish
  | ioerr
deriving DecidableEq, Repr

/-- Why a 32-bit word is no command (R95). -/
inductive Illegal where
  /-- RSVD, bits 31 to 16, is not 0. -/
  | rsvdNonzero
  /-- OP is 0x07 to 0xFF. -/
  | opReserved
  /-- DATA is not 0 and OP is neither COUNT nor PACK. -/
  | dataNonzero
deriving DecidableEq, Repr

/-- What decoding a word answers: "either a command or ILLEGAL" (R94), the latter with its reason. -/
inductive Decoded where
  | command (c : Instr)
  | illegal (why : Illegal)
deriving DecidableEq, Repr

/-- A pseudo-instruction of the assembler over a byte sequence; it has no encoding of its own (R97). -/
inductive Pseudo where
  | counts (s : List Byte)
  | packs (s : List Byte)
  | encode (s : List Byte)
deriving DecidableEq, Repr

end Sys2Proof
end

