-- ==== Sys2Proof/WellFormed.lean ====
section
/-! DEFINITION. Which command words are well formed, one named check per clause of
spec/30_encoding.md R95, and which commands are. A command is well formed by its type: its one operand
is a byte, so no term of `Instr` is ill formed, and the checks that can fail are those of a word. -/

namespace Sys2Proof

/-- R95, first clause: RSVD, bits 31 to 16, is 0. -/
def rsvdClear (w : Word) : Bool := w.toNat / 65536 == 0

/-- The value of OP, bits 15 to 8, as a number (R91). -/
def opNumber (w : Word) : Nat := w.toNat / 256 % 256

/-- R95, second clause: OP is not one of 0x07 to 0xFF. -/
def opDefined (w : Word) : Bool := opNumber w < 7

/-- R95, third clause: DATA, bits 7 to 0, is 0 unless OP is 0x02 or 0x04. -/
def dataAllowed (w : Word) : Bool := w.toNat % 256 == 0 || opNumber w == 2 || opNumber w == 4

/-- A word is one of the seven commands when it passes the three checks (R95). -/
def wordWellFormed (w : Word) : Bool := rsvdClear w && opDefined w && dataAllowed w

/-- A command is well formed when its operand lies in 0 to 255 (R93), which the type `Byte` enforces. -/
def Instr.wellFormed : Instr → Bool
  | .nop => true
  | .start => true
  | .count d => d.toNat < 256
  | .build => true
  | .pack d => d.toNat < 256
  | .finish => true
  | .ioerr => true

end Sys2Proof
end

