-- ==== Sys2Proof/Decode.lean ====
section
/-! DEFINITION. Decoding a 32-bit command word (spec/30_encoding.md R91, R94), the encoder written from
the opcode map (R92), and that map as rows of mask and pattern. -/

namespace Sys2Proof

/-- RSVD, bits 31 to 16 (R91). -/
def fieldRsvd (w : Word) : BitVec 16 := w.extractLsb' 16 16

/-- OP, bits 15 to 8 (R91). -/
def fieldOp (w : Word) : Byte := w.extractLsb' 8 8

/-- DATA, bits 7 to 0 (R91, R93). -/
def fieldData (w : Word) : Byte := w.extractLsb' 0 8

/-- R94: `Decode(w)`, total on every word. -/
def decode (w : Word) : Decoded :=
  if fieldRsvd w ≠ 0 then .illegal .rsvdNonzero
  else if fieldOp w = 0x02#8 then .command (.count (fieldData w))
  else if fieldOp w = 0x04#8 then .command (.pack (fieldData w))
  else if fieldData w ≠ 0 then .illegal (if fieldOp w < 0x07#8 then .dataNonzero else .opReserved)
  else if fieldOp w = 0x00#8 then .command .nop
  else if fieldOp w = 0x01#8 then .command .start
  else if fieldOp w = 0x03#8 then .command .build
  else if fieldOp w = 0x05#8 then .command .finish
  else if fieldOp w = 0x06#8 then .command .ioerr
  else .illegal .opReserved

/-- The word of a command (R92: the match column, with DATA in bits 7 to 0 for COUNT and PACK). -/
def encode : Instr → Word
  | .nop => 0x00000000#32
  | .start => 0x00000100#32
  | .count d => 0x00000200#32 ||| d.setWidth 32
  | .build => 0x00000300#32
  | .pack d => 0x00000400#32 ||| d.setWidth 32
  | .finish => 0x00000500#32
  | .ioerr => 0x00000600#32

/-- One row of the opcode map (R92). -/
structure OpcodeRow where
  op : Byte
  pattern : Word
  mask : Word
deriving DecidableEq, Repr

/-- R92: the seven rows of the opcode map, as the spec writes them. -/
def opcodeMap : List OpcodeRow :=
  [ ⟨0x00#8, 0x00000000#32, 0xFFFFFFFF#32⟩,
    ⟨0x01#8, 0x00000100#32, 0xFFFFFFFF#32⟩,
    ⟨0x02#8, 0x00000200#32, 0xFFFFFF00#32⟩,
    ⟨0x03#8, 0x00000300#32, 0xFFFFFFFF#32⟩,
    ⟨0x04#8, 0x00000400#32, 0xFFFFFF00#32⟩,
    ⟨0x05#8, 0x00000500#32, 0xFFFFFFFF#32⟩,
    ⟨0x06#8, 0x00000600#32, 0xFFFFFFFF#32⟩ ]

/-- R92: a word w matches a row when `(w & mask) = match`. -/
def OpcodeRow.accepts (r : OpcodeRow) (w : Word) : Bool := w &&& r.mask == r.pattern

/-- The row of the opcode map a command belongs to, by its OP (R92). -/
def opcodeOf : Instr → Byte
  | .nop => 0x00#8
  | .start => 0x01#8
  | .count _ => 0x02#8
  | .build => 0x03#8
  | .pack _ => 0x04#8
  | .finish => 0x05#8
  | .ioerr => 0x06#8

/-- The command a table word stands for, when decoding gives one: every command is one 32-bit word
(R90), and the bits above `nbits` are 0. -/
def decodeTableWord (nbits w : Nat) : Option Instr :=
  match decode (BitVec.ofNat 32 (w % 2 ^ nbits)) with
  | .command c => some c
  | .illegal _ => none

end Sys2Proof
end

