-- ==== Sys2Proof/Machine/State.lean ====
section
/-! DEFINITION. The architectural state of HUFFENC (spec/10_state.md R21), the model's two fields for the
host at the other end of the bus, the reset state (R43), and the reasons a step could stop. -/

namespace Sys2Proof.Machine

/-- PHASE (R22). The encodings 4, 5 and 6 are never held, so they have no constructor. -/
inductive Phase where
  | idle
  | counting
  | packing
  | done
  | error
deriving DecidableEq, Repr

/-- The error codes (spec/60_exceptions.md R300). Codes 7 to 255 are never produced. -/
inductive ErrCode where
  | noError
  | emptyInput
  | ioError
  | formatOverflow
  | inputMismatch
  | countOverflow
  | illegalCommand
deriving DecidableEq, Repr

/-- A node of TREE (R27). Children are node ids, indexes into TREE. `right` is `none` (the spec's NONE) only in
the single-symbol root (spec/42_huffman_tree_builder.md R175). A count has 32 bits (spec/00_scope.md R5, COUNT_W). -/
inductive Node where
  | leaf (sym : Byte) (count : Word)
  | internal (count : Word) (left : Nat) (right : Option Nat)
deriving DecidableEq, Repr

/-- What the host does to the block, one action a step (spec/20_memory.md R61 to R63, spec/70_reset_and_hazards.md
R340). `size` is the number of bytes the access moves. -/
inductive HostAction where
  | read (offset : Offset) (size : Nat)
  | write (offset : Offset) (size : Nat) (value : Word)
  | reset
deriving DecidableEq, Repr

/-- How the bus answers an access (R61 to R63): a read's data, a write's completion, or a bus error. -/
inductive BusResponse where
  | data (value : Word)
  | accepted
  | busError
deriving DecidableEq, Repr

/-- The state: R21's tuple, then the model's own two fields (DESIGN CHOICE: log entries 1 and 2). -/
structure State where
  /-- PHASE (R22). -/
  phase : Phase
  /-- FREQ (R23). -/
  freq : Table Word
  /-- ORIG_SIZE (R24). -/
  origSize : Word
  /-- CODE (R26). -/
  code : Table Bits
  /-- TREE (R27), indexed by node id. -/
  tree : List Node
  /-- REMAIN (R28). -/
  remain : Table Word
  /-- TOTAL_BITS (R29). -/
  totalBits : DWord
  /-- PAYLOAD_BYTES (R30). -/
  payloadBytes : DWord
  /-- PADDING (R31). -/
  padding : BitVec 3
  /-- HEADER_LEN (R32). -/
  headerLen : Word
  /-- PACKED_IN (R33). -/
  packedIn : Word
  /-- BITBUF (R38); the head is the oldest bit. -/
  bitBuf : Bits
  /-- ERRCODE (R36). -/
  errCode : ErrCode
  /-- ERRPHASE (R36). -/
  errPhase : Phase
  /-- ERRCMD (R37). -/
  errCmd : Word
  /-- OUT (spec/20_memory.md R73); the head is the first byte emitted. -/
  out : List Byte
  /-- MODEL: what the host does next, in its issue order (R70). -/
  hostQueue : List HostAction
  /-- MODEL: the bus's answer to the last completed access. -/
  busResponse : Option BusResponse
deriving DecidableEq, Repr

/-- Why the machine would stop with a fault. HUFFENC never stops: its errors are the error entry of
spec/60_exceptions.md R301 and a bus error is a response to the host (spec/20_memory.md R61), both next states. So
there is no constructor, and no step can answer a fault. -/
inductive Fault where
deriving DecidableEq, Repr

/-- Why a command would have no meaning. -/
inductive Refusal where
  /-- Raised by an arm of `exec` whose instruction has no meaning yet (safe). Every instruction of HUFFENC has its
  meaning, so no arm raises it. -/
  | notModelled (mnemonic : String)
deriving DecidableEq, Repr

/-- The machine right after reset (R43, column "after reset"). OUT is empty, no host action is pending and the bus
has answered nothing (DESIGN CHOICE: log entries 1, 2 and 8). -/
def State.reset : State where
  phase := .idle
  freq := Vector.replicate 256 0
  origSize := 0
  code := Vector.replicate 256 []
  tree := []
  remain := Vector.replicate 256 0
  totalBits := 0
  payloadBytes := 0
  padding := 0
  headerLen := 0
  packedIn := 0
  bitBuf := []
  errCode := .noError
  errPhase := .idle
  errCmd := 0
  out := []
  hostQueue := []
  busResponse := none

end Sys2Proof.Machine
end

