-- ==== Sys2Proof/Machine/Operands.lean ====
section
/-! DEFINITION. The one operand form of HUFFENC, DATA (spec/30_encoding.md R93), and the bit strings and bytes it
and the packer are made of (spec/00_scope.md R7). -/

namespace Sys2Proof.Machine

/-- R93: DATA of a command that has an operand, an unsigned byte value taken as it stands. -/
def operand : Instr → Option Byte
  | .nop => none
  | .start => none
  | .count d => some d
  | .build => none
  | .pack d => some d
  | .finish => none
  | .ioerr => none

/-- R7: `BitsToByte`, the bit string read as a binary number, first bit most significant. -/
def bitsToByte (s : Bits) : Byte := BitVec.ofNat 8 (s.foldl (fun acc b => 2 * acc + b.toNat) 0)

/-- R7: `zeros(k)`. -/
def zeros (k : Nat) : Bits := List.replicate k false

/-- R222: the ASCII digit byte of one code bit, 0x30 for 0 and 0x31 for 1. -/
def digitByte (b : Bool) : Byte := if b then 0x31#8 else 0x30#8

/-- The byte values 0 to 255 in ascending order (R9: `for b in 0..255`). -/
def allBytes : List Byte := (List.range 256).map (BitVec.ofNat 8)

/-- R9: `sum over b in 0..255`. -/
def sumBytes (f : Byte → Nat) : Nat := (allBytes.map f).sum

end Sys2Proof.Machine
end

