-- ==== Sys2Proof/Machine/Ops.lean ====
section
/-! DEFINITION. The operations the commands share: table access, `Emit`, which command is legal in which phase,
error entry and its exits, reset, and the dispatch of a decoded command. -/

namespace Sys2Proof.Machine

/-- R9: `T[b]`. -/
def readAt {α : Type} (t : Table α) (b : Byte) : α := t[b.toNat]'b.isLt

/-- R9: `T[b] <- v`. -/
def writeAt {α : Type} (t : Table α) (b : Byte) (v : α) : Table α := t.set b.toNat v b.isLt

/-- A table with the same entry for every byte value (`for b in 0..255: T[b] <- v`). -/
def fillTable {α : Type} (v : α) : Table α := Vector.replicate 256 v

/-- R25: NSYM, the number of byte values with a nonzero count; a function of FREQ. -/
def nsym (freq : Table Word) : Nat := (allBytes.filter fun b => readAt freq b != 0).length

/-- R26: CODELEN[b]. -/
def codeLen (code : Table Bits) (b : Byte) : Nat := (readAt code b).length

/-- R73: `Emit` of each byte of a list, in order. -/
def emit (bytes : List Byte) (s : State) : State := { s with out := s.out ++ bytes }

/-- R121: `Legal(c, PHASE)`. The table has no ERROR column: `perform` decides there before it is read (R120). -/
def legal (c : Instr) (p : Phase) : Bool :=
  match c with
  | .nop => true
  | .start => true
  | .count _ => p == .counting
  | .build => p == .counting
  | .pack _ => p == .packing
  | .finish => p == .packing
  | .ioerr => true

/-- R301: the error entry `raise Error(code)` during the command word w. It saves the phase and the word, and
writes nothing else (R306: whatever the command had written is discarded, so this acts on the state before it). -/
def raiseError (code : ErrCode) (w : Word) (s : State) : State :=
  { s with errPhase := s.phase, errCode := code, errCmd := w, phase := .error }

/-- R123: the state START leaves, one of the two exits from ERROR (R303). OUT is not changed (R43). -/
def startRun (s : State) : State :=
  { s with
    freq := fillTable 0, remain := fillTable 0, code := fillTable []
    tree := []
    origSize := 0, totalBits := 0, payloadBytes := 0
    padding := 0, headerLen := 0, packedIn := 0
    bitBuf := []
    errCode := .noError, errPhase := .idle, errCmd := 0
    phase := .counting }

/-- R340, R43: reset, the other exit from ERROR (R303). OUT is not changed. The host's pending actions stay, and the
bus has answered nothing since (DESIGN CHOICE: log entry 2). -/
def resetBlock (s : State) : State := { State.reset with out := s.out, hostQueue := s.hostQueue }

/-- R120: performs a decoded command c, whose own effect is `body`. In ERROR every command but START is ignored. A
command not legal in the phase raises ILLEGAL_COMMAND. A body that answers an error code raises it, and none of the
body's writes happen (R306). -/
def perform (c : Instr) (body : State → Except ErrCode State) (s : State) : Host.Outcome State Fault Refusal :=
  if s.phase = .error ∧ c ≠ .start then .next s
  else if legal c s.phase = false then .next (raiseError .illegalCommand (encode c) s)
  else
    match body s with
    | .ok t => .next t
    | .error code => .next (raiseError code (encode c) s)

/-- R120: an ILLEGAL word w raises ILLEGAL_COMMAND, except in ERROR, where it is ignored (R95). -/
def rejectWord (w : Word) (s : State) : Host.Outcome State Fault Refusal :=
  if s.phase = .error then .next s else .next (raiseError .illegalCommand w s)

end Sys2Proof.Machine
end

