-- ==== Sys2Proof/Machine/BitPacker.lean ====
section
/-! DEFINITION. The Bit Packer, commands PACK and FINISH (spec/45_bit_packer.md R250 to R256). -/

namespace Sys2Proof.Machine

/-- R250: the loop of Push on a buffer: the bytes it emits and the bits it leaves. Each pass takes the 8 oldest bits
(R251); the buffer's length bounds the passes. -/
def drain : Nat → Bits → List Byte × Bits
  | 0, buf => ([], buf)
  | fuel + 1, buf =>
    if buf.length ≥ 8 then
      let (bytes, rest) := drain fuel (buf.drop 8)
      (bitsToByte (buf.take 8) :: bytes, rest)
    else ([], buf)

/-- R250: `Push(s)`: append the bits to BITBUF and emit every whole byte at its front. -/
def push (bits : Bits) (s : State) : State :=
  let buf := s.bitBuf ++ bits
  let (bytes, rest) := drain buf.length buf
  emit bytes { s with bitBuf := rest }

/-- R252: `Execute(PACK(d))`. -/
def packBody (d : Byte) (s : State) : Except ErrCode State :=
  if readAt s.remain d = 0 then .error .inputMismatch
  else
    .ok (push (readAt s.code d)
      { s with remain := writeAt s.remain d (readAt s.remain d - 1), packedIn := s.packedIn + 1 })

/-- R252: PACK d, encode one byte of pass 2. -/
def execPack (d : Byte) (s : State) : Host.Outcome State Fault Refusal := perform (.pack d) (packBody d) s

/-- R253: `Execute(FINISH)`. -/
def finishBody (s : State) : Except ErrCode State :=
  if s.packedIn ≠ s.origSize then .error .inputMismatch
  else .ok { push (zeros s.padding.toNat) s with phase := .done }

/-- R253: FINISH, end of input: pad and flush the last byte. -/
def execFinish (s : State) : Host.Outcome State Fault Refusal := perform .finish finishBody s

/-- R256: the bits P of the closed form: the codes of S in order, then the padding. -/
def payloadBits (code : Table Bits) (padding : Nat) (S : List Byte) : Bits :=
  S.flatMap (fun b => readAt code b) ++ zeros padding

/-- R256: `Payload(S)`, the bytes of the closed form. -/
def payload (code : Table Bits) (padding : Nat) (S : List Byte) : List Byte :=
  (List.range ((payloadBits code padding S).length / 8)).map fun j =>
    bitsToByte (((payloadBits code padding S).drop (8 * j)).take 8)

end Sys2Proof.Machine
end

