-- ==== Sys2Proof/Machine/Control.lean ====
section
/-! DEFINITION. The control commands NOP, START and IOERR (spec/40_command_control.md R122 to R124). -/

namespace Sys2Proof.Machine

/-- R122: NOP, no operation. -/
def execNop (s : State) : Host.Outcome State Fault Refusal := perform .nop (fun s => .ok s) s

/-- R123: START, begin a new run, from any phase. -/
def execStart (s : State) : Host.Outcome State Fault Refusal := perform .start (fun s => .ok (startRun s)) s

/-- R124: IOERR, the host reports an I/O failure of the run. -/
def execIoerr (s : State) : Host.Outcome State Fault Refusal := perform .ioerr (fun _ => .error .ioError) s

end Sys2Proof.Machine
end

