-- ==== Sys2Proof/Machine/FrequencyCounter.lean ====
section
/-! DEFINITION. The Frequency Counter, command COUNT (spec/41_frequency_counter.md R150). -/

namespace Sys2Proof.Machine

/-- R150: `Execute(COUNT(d))`. -/
def countBody (d : Byte) (s : State) : Except ErrCode State :=
  if s.origSize = Config.maxInputLen then .error .countOverflow
  else .ok { s with freq := writeAt s.freq d (readAt s.freq d + 1), origSize := s.origSize + 1 }

/-- R150: COUNT d, count one occurrence of the byte value d. -/
def execCount (d : Byte) (s : State) : Host.Outcome State Fault Refusal := perform (.count d) (countBody d) s

end Sys2Proof.Machine
end

