-- ==== Sys2Proof/Machine/TreeBuilder.lean ====
section
/-! DEFINITION. The Huffman Tree Builder (spec/42_huffman_tree_builder.md R170 to R175), the first step of BUILD.
The queue Q of live node ids is held as the list of their keys `(TREE[i].count, i)`, in no particular order. -/

namespace Sys2Proof.Machine

/-- The count of a node (R27). -/
def Node.count : Node → Word
  | .leaf _ n => n
  | .internal n _ _ => n

/-- R170: `key(i) = (TREE[i].count, i)`. -/
structure Key where
  count : Word
  id : Nat
deriving DecidableEq, Repr

/-- R172: keys compare by count first, as a natural, then by id. -/
def Key.less (a b : Key) : Bool := a.count < b.count || (a.count == b.count && a.id < b.id)

/-- R171: the leaves, in ascending byte value, of the byte values with a nonzero count. -/
def leaves (freq : Table Word) : List Node :=
  allBytes.filterMap fun b => if readAt freq b = 0 then none else some (.leaf b (readAt freq b))

/-- R170: the queue before the first merge holds every leaf. -/
def leafKeys (ls : List Node) : List Key := ls.zipIdx.map fun (n, i) => ⟨n.count, i⟩

/-- R172: the least key of the nonempty queue `k :: q`, and the queue without it. -/
def extractMin (k : Key) : List Key → Key × List Key
  | [] => (k, [])
  | k' :: q =>
    if k'.less k then
      let (m, rest) := extractMin k' q
      (m, k :: rest)
    else
      let (m, rest) := extractMin k q
      (m, k' :: rest)

/-- R173: the node made of the first-extracted x, its left child, and the second-extracted y, its right child. The sum
has COUNT_W bits; R177 shows that no run makes it wrap (log entry 9). -/
def mergeNode (x y : Key) : Node := .internal (x.count + y.count) x.id (some y.id)

/-- R173: one pass of the loop: extract x, then y, append their merge to TREE and put its key in the queue. It
answers none when fewer than two nodes are live. -/
def mergeStep : List Key → List Node → Option (List Key × List Node)
  | [], _ => none
  | k :: q, tree =>
    let (x, q₁) := extractMin k q
    match q₁ with
    | [] => none
    | k₁ :: q₁ =>
      let (y, q₂) := extractMin k₁ q₁
      some (⟨(mergeNode x y).count, tree.length⟩ :: q₂, tree ++ [mergeNode x y])

/-- R170: `while |Q| > 1`, for at most `fuel` passes; R174 says that |Q| - 1 suffice. -/
def mergeLoop : Nat → List Key → List Node → List Key × List Node
  | 0, q, tree => (q, tree)
  | fuel + 1, q, tree =>
    match mergeStep q tree with
    | none => (q, tree)
    | some (q', tree') => mergeLoop fuel q' tree'

/-- R170: `TreeBuild(FREQ)`: TREE and the root's node id. A single leaf is wrapped under a synthetic root (R175).
BUILD never runs it with no leaf (R176); it then answers the empty tree. -/
def treeBuild (freq : Table Word) : List Node × Nat :=
  let ls := leaves freq
  match ls with
  | [l] => ([l, .internal l.count 0 none], 1)
  | _ =>
    let (q, tree) := mergeLoop ls.length (leafKeys ls) ls
    (tree, (q.head?.map Key.id).getD 0)

end Sys2Proof.Machine
end

