-- ==== Sys2Proof/Machine/CodeTable.lean ====
section
/-! DEFINITION. The Code Table Generator and the totals (spec/43_code_table_generator.md R200 to R206), steps of BUILD. -/

namespace Sys2Proof.Machine

/-- R200: `Walk(i, prefix)`, as the list of the leaves below node i, each with the path to it. `fuel` bounds the
depth; a child's id is smaller than its parent's, so TREE's length suffices. -/
def walk (tree : List Node) : Nat → Nat → Bits → List (Byte × Bits)
  | 0, _, _ => []
  | fuel + 1, i, pre =>
    match tree[i]? with
    | none => []
    | some (.leaf sym _) => [(sym, pre)]
    | some (.internal _ left none) => walk tree fuel left (pre ++ [false])
    | some (.internal _ left (some right)) =>
      walk tree fuel left (pre ++ [false]) ++ walk tree fuel right (pre ++ [true])

/-- R200: `CodeGen(TREE, root)`: every entry empty, then each leaf's path. -/
def codeGen (tree : List Node) (root : Nat) : Table Bits :=
  (walk tree tree.length root []).foldl (fun code p => writeAt code p.1 p.2) (fillTable [])

/-- The code a run with the counts FREQ gets: R225's `CodeGen(TREE, root)` on R225's `TreeBuild(FREQ)`. -/
def codeOf (freq : Table Word) : Table Bits := codeGen (treeBuild freq).1 (treeBuild freq).2

/-- R202: `CodeTooLong`. -/
def codeTooLong (code : Table Bits) : Bool := allBytes.any fun b => codeLen code b > Config.maxCodeLen

/-- R204: the value of TOTAL_BITS, exact. -/
def totalCodeBits (freq : Table Word) (code : Table Bits) : Nat :=
  sumBytes fun b => (readAt freq b).toNat * codeLen code b

/-- R205: the value of PADDING. -/
def paddingFor (total : Nat) : Nat := (8 - total % 8) % 8

/-- R206: the value of PAYLOAD_BYTES. -/
def payloadBytesFor (total : Nat) : Nat := (total + 7) / 8

end Sys2Proof.Machine
end

