-- ==== Sys2Proof/Machine/Header.lean ====
section
/-! DEFINITION. The Header Serializer and the command BUILD (spec/44_header_serializer.md R220 to R226). -/

namespace Sys2Proof.Machine

/-- R222: one header entry: the byte value, the code's length, one digit byte per code bit. -/
def headerEntry (b : Byte) (code : Bits) : List Byte := b :: BitVec.ofNat 8 code.length :: code.map digitByte

/-- R222: the entries of the byte values with a nonempty code, in ascending byte value. -/
def headerEntries (code : Table Bits) : List Byte :=
  allBytes.flatMap fun b => if codeLen code b > 0 then headerEntry b (readAt code b) else []

/-- R220: `HeaderBytes(CODE, NSYM, PADDING)`. -/
def headerBytes (code : Table Bits) (n padding : Nat) : List Byte :=
  BitVec.ofNat 8 (n - 1) :: headerEntries code ++ [BitVec.ofNat 8 padding]

/-- R225: the state BUILD leaves once its checks have passed, from the tree and the code it built. -/
def buildResult (tree : List Node) (code : Table Bits) (s : State) : State :=
  let total := totalCodeBits s.freq code
  let header := headerBytes code (nsym s.freq) (paddingFor total)
  emit header
    { s with
      tree := tree
      code := code
      totalBits := BitVec.ofNat 64 total
      padding := BitVec.ofNat 3 (paddingFor total)
      payloadBytes := BitVec.ofNat 64 (payloadBytesFor total)
      headerLen := BitVec.ofNat 32 header.length
      remain := s.freq
      phase := .packing }

/-- R225: `Execute(BUILD)`. EMPTY_INPUT is checked before FORMAT_OVERFLOW (R304). -/
def buildBody (s : State) : Except ErrCode State :=
  if nsym s.freq = 0 then .error .emptyInput
  else
    let built := treeBuild s.freq
    let code := codeGen built.1 built.2
    if nsym s.freq - 1 > Config.maxHeaderCount ∨ codeTooLong code = true then .error .formatOverflow
    else .ok (buildResult built.1 code s)

/-- R225: BUILD, end pass 1, build the code, emit the header, open pass 2. -/
def execBuild (s : State) : Host.Outcome State Fault Refusal := perform .build buildBody s

end Sys2Proof.Machine
end

