-- ==== Sys2Proof/Machine/Dispatch.lean ====
section
/-! DEFINITION. One arm per command (spec/40_command_control.md R120: `Execute(c)`, with the checks of R120 and R121
that come before it, which every meaning makes through the shared operation `perform`). -/

namespace Sys2Proof.Machine

def exec (i : Instr) (s : State) : Host.Outcome State Fault Refusal :=
  match i with
  | .nop => Sys2Proof.Machine.execNop s
  | .start => Sys2Proof.Machine.execStart s
  | .count d => Sys2Proof.Machine.execCount d s
  | .build => Sys2Proof.Machine.execBuild s
  | .pack d => Sys2Proof.Machine.execPack d s
  | .finish => Sys2Proof.Machine.execFinish s
  | .ioerr => Sys2Proof.Machine.execIoerr s

end Sys2Proof.Machine
end

