-- ==== Sys2Proof/Machine/Flags.lean ====
section
/-! DEFINITION. The flags and packed fields of STATUS and ERRINFO (spec/10_state.md R22, R35, R36, R39). -/

namespace Sys2Proof.Machine

/-- R22: the 3-bit encoding of PHASE. -/
def Phase.bits : Phase → BitVec 3
  | .idle => 0#3
  | .counting => 1#3
  | .packing => 2#3
  | .done => 3#3
  | .error => 7#3

/-- R300: the 8-bit encoding of ERRCODE. -/
def ErrCode.bits : ErrCode → BitVec 8
  | .noError => 0#8
  | .emptyInput => 1#8
  | .ioError => 2#8
  | .formatOverflow => 3#8
  | .inputMismatch => 4#8
  | .countOverflow => 5#8
  | .illegalCommand => 6#8

/-- R35, R39: STATUS.ERR, a function of PHASE. -/
def flagErr (s : State) : BitVec 1 := if s.phase = .error then 1#1 else 0#1

/-- R35, R39: STATUS.DONE, a function of PHASE. -/
def flagDone (s : State) : BitVec 1 := if s.phase = .done then 1#1 else 0#1

/-- R35, R38: STATUS.BITCNT, len(BITBUF). -/
def bitCount (s : State) : BitVec 3 := BitVec.ofNat 3 s.bitBuf.length

/-- R35: STATUS: reserved [31:11], BITCNT [10:8], reserved [7:5], DONE [4], ERR [3], PHASE [2:0]. -/
def statusWord (s : State) : Word :=
  0#21 ++ bitCount s ++ 0#3 ++ flagDone s ++ flagErr s ++ s.phase.bits

/-- R36: ERRINFO: reserved [31:11], ERRPHASE [10:8], ERRCODE [7:0]. -/
def errInfoWord (s : State) : Word := 0#21 ++ s.errPhase.bits ++ s.errCode.bits

end Sys2Proof.Machine
end

