-- ==== Sys2Proof/Machine/Registers.lean ====
section
/-! DEFINITION. The register map as a bus read sees it (spec/10_state.md R34, R40 to R42; spec/20_memory.md R62). -/

namespace Sys2Proof.Machine

/-- The byte value b of a window offset 0x400 + 4*b or 0x800 + 4*b (R40, R41). -/
def windowIndex (off : Offset) : Byte := off.extractLsb' 2 8

/-- R62: the value of the register at a 4-aligned offset. -/
def readRegister (off : Offset) (s : State) : Word :=
  if off = 0x000#12 then 0
  else if off = 0x004#12 then statusWord s
  else if off = 0x008#12 then errInfoWord s
  else if off = 0x00C#12 then s.errCmd
  else if off = 0x010#12 then s.origSize
  else if off = 0x014#12 then BitVec.ofNat 32 (nsym s.freq)
  else if off = 0x018#12 then s.totalBits.extractLsb' 0 32
  else if off = 0x01C#12 then s.totalBits.extractLsb' 32 32
  else if off = 0x020#12 then s.payloadBytes.extractLsb' 0 32
  else if off = 0x024#12 then s.payloadBytes.extractLsb' 32 32
  else if off = 0x028#12 then s.padding.setWidth 32
  else if off = 0x02C#12 then s.headerLen
  else if off = 0x030#12 then s.packedIn
  else if off = 0x034#12 then Config.idWord
  else if off.extractLsb' 10 2 = 1#2 then readAt s.freq (windowIndex off)
  else if off.extractLsb' 10 2 = 2#2 then (BitVec.ofNat 8 (codeLen s.code (windowIndex off))).setWidth 32
  else 0

/-- R61: an access is legal when it moves 4 bytes and its offset is a multiple of 4. -/
def legalAccess (off : Offset) (size : Nat) : Bool := size == 4 && off.toNat % 4 == 0

end Sys2Proof.Machine
end

