-- ==== Sys2Proof/Machine/Bus.lean ====
section
/-! DEFINITION. The register bus and the reset input: what one action of the host does (spec/20_memory.md R61 to R63,
spec/40_command_control.md R120, spec/70_reset_and_hazards.md R340). -/

namespace Sys2Proof.Machine

/-- R120: `Dispatch(w)`, the word w written to CMD. -/
def dispatchWord (w : Word) (s : State) : Host.Outcome State Fault Refusal :=
  match decode w with
  | .command c => exec c s
  | .illegal _ => rejectWord w s

/-- What the bus answers is recorded for the host. -/
def respond (r : BusResponse) (s : State) : State := { s with busResponse := some r }

/-- R61, R62: a bus read. -/
def busRead (off : Offset) (size : Nat) (s : State) : Host.Outcome State Fault Refusal :=
  if legalAccess off size then .next (respond (.data (readRegister off s)) s) else .next (respond .busError s)

/-- R61, R63: a bus write. Only a write to CMD, offset 0x000, has an effect beyond its answer. -/
def busWrite (off : Offset) (size : Nat) (value : Word) (s : State) : Host.Outcome State Fault Refusal :=
  if legalAccess off size then
    if off = 0x000#12 then dispatchWord value (respond .accepted s) else .next (respond .accepted s)
  else .next (respond .busError s)

/-- One action of the host. -/
def performAction (a : HostAction) (s : State) : Host.Outcome State Fault Refusal :=
  match a with
  | .read off size => busRead off size s
  | .write off size value => busWrite off size value s
  | .reset => .next (resetBlock s)

/-- The host's next action is taken off the queue, then performed (R68, R70). With none pending the block waits
(R341), and nothing changes. -/
def takeAction (s : State) : Host.Outcome State Fault Refusal :=
  match s.hostQueue with
  | [] => .next s
  | a :: rest => performAction a { s with hostQueue := rest }

/-- The host's bus write of the word of a table row to CMD, placed before its other actions. -/
def queueWord (nbits w : Nat) (s : State) : State :=
  { s with hostQueue := .write 0x000#12 4 (BitVec.ofNat 32 (w % 2 ^ nbits)) :: s.hostQueue }

end Sys2Proof.Machine
end

