-- ==== Sys2Proof/Machine/Step.lean ====
section
/-! DEFINITION. One step: the host's next action, performed whole (spec/20_memory.md R68, R70). -/

namespace Sys2Proof.Machine

/-- One step of the machine. -/
def step (s : State) : Host.Outcome State Fault Refusal := takeAction s

/-- HUFFENC fetches no instructions (R72): its next command is the next word the host writes to CMD. This is s with
that write as the host's very next action (log entry 1). -/
def State.withFetchWord (s : State) (nbits w : Nat) : State := queueWord nbits w s

end Sys2Proof.Machine
end

