-- ==== Sys2Proof/Machine/Assembler.lean ====
section
/-! DEFINITION. The assembler syntax and the pseudo-instructions (spec/30_encoding.md R96, R97). It is the notation of
the spec's test programs, not hardware: no command reads it. A line is a list of characters. Where the spec does not
say how white space is placed, spaces may stand around every part (DESIGN CHOICE: log entry 13). -/

namespace Sys2Proof.Machine

/-- R97: the commands a pseudo-instruction stands for. -/
def expandPseudo : Pseudo → List Instr
  | .counts s => s.map .count
  | .packs s => s.map .pack
  | .encode s => .start :: s.map .count ++ .build :: s.map .pack ++ [.finish]

/-- The value of a decimal digit. -/
def decimalDigit (c : Char) : Option Nat :=
  if 48 ≤ c.toNat ∧ c.toNat ≤ 57 then some (c.toNat - 48) else none

/-- The value of a hexadecimal digit, of either case. -/
def hexDigit (c : Char) : Option Nat :=
  if 48 ≤ c.toNat ∧ c.toNat ≤ 57 then some (c.toNat - 48)
  else if 65 ≤ c.toNat ∧ c.toNat ≤ 70 then some (c.toNat - 55)
  else if 97 ≤ c.toNat ∧ c.toNat ≤ 102 then some (c.toNat - 87)
  else none

/-- Reads digits after the value `acc`, and answers the value and the characters left. -/
def takeDigits (digit : Char → Option Nat) (base : Nat) : List Char → Nat → Nat × List Char
  | [], acc => (acc, [])
  | c :: cs, acc =>
    match digit c with
    | some v => takeDigits digit base cs (acc * base + v)
    | none => (acc, c :: cs)

/-- Reads a numeral of at least one digit whose value is a byte. -/
def takeNumeral (digit : Char → Option Nat) (base : Nat) : List Char → Option (Byte × List Char)
  | [] => none
  | c :: cs =>
    match digit c with
    | none => none
    | some v =>
      let (n, rest) := takeDigits digit base cs v
      if n < 256 then some (BitVec.ofNat 8 n, rest) else none

/-- R96: a byte value, in hexadecimal (`0x41`), in decimal (`65`), or as a quoted ASCII character (`'A'`). -/
def takeByte : List Char → Option (Byte × List Char)
  | '\'' :: c :: '\'' :: rest => if c.toNat < 128 then some (BitVec.ofNat 8 c.toNat, rest) else none
  | '0' :: 'x' :: cs => takeNumeral hexDigit 16 cs
  | cs => takeNumeral decimalDigit 10 cs

/-- Drops leading spaces. -/
def skipSpaces (cs : List Char) : List Char := cs.dropWhile (· == ' ')

/-- R97: the elements of a bracketed list after its first, up to the closing bracket. `fuel` bounds their number. -/
def takeElements : Nat → List Char → Option (List Byte × List Char)
  | 0, _ => none
  | fuel + 1, cs =>
    match skipSpaces cs with
    | ']' :: rest => some ([], rest)
    | ',' :: cs =>
      match takeByte (skipSpaces cs) with
      | none => none
      | some (b, rest) => (takeElements fuel rest).map fun (bs, left) => (b :: bs, left)
    | _ => none

/-- R97: the characters of a quoted string, up to the closing quote (code 34), each an ASCII code (R96). -/
def takeQuoted : List Char → Option (List Byte × List Char)
  | [] => none
  | c :: cs =>
    if c.toNat = 34 then some ([], cs)
    else if c.toNat < 128 then
      (takeQuoted cs).map fun (bs, left) => (BitVec.ofNat 8 c.toNat :: bs, left)
    else none

/-- R97: a byte sequence, written as a list `[0x41, 0x42]` or as a quoted string. -/
def takeSequence : List Char → Option (List Byte × List Char)
  | [] => none
  | c :: cs =>
    if c.toNat = 34 then takeQuoted cs
    else if c = '[' then
      match skipSpaces cs with
      | ']' :: rest => some ([], rest)
      | cs =>
        match takeByte cs with
        | none => none
        | some (b, rest) => (takeElements (rest.length + 1) rest).map fun (bs, left) => (b :: bs, left)
    else none

/-- R96: nothing but a comment (`;` starts one) may follow. -/
def endOfLine (cs : List Char) : Bool :=
  match skipSpaces cs with
  | [] => true
  | c :: _ => c == ';'

/-- A part read by `take`, with nothing after it on the line. -/
def wholeOperand {α : Type} (take : List Char → Option (α × List Char)) (cs : List Char) : Option α :=
  match take (skipSpaces cs) with
  | none => none
  | some (v, rest) => if endOfLine rest then some v else none

/-- A command with no operand. -/
def noOperand (c : Instr) (cs : List Char) : Option (List Instr) := if endOfLine cs then some [c] else none

/-- R96, R97: the commands of one line of assembler text; none where it is not the syntax. -/
def assembleLine (line : List Char) : Option (List Instr) :=
  if endOfLine line then some []
  else
    let text := skipSpaces line
    let word := text.takeWhile Char.isUpper
    let rest := text.dropWhile Char.isUpper
    if word = ['N', 'O', 'P'] then noOperand .nop rest
    else if word = ['S', 'T', 'A', 'R', 'T'] then noOperand .start rest
    else if word = ['C', 'O', 'U', 'N', 'T'] then (wholeOperand takeByte rest).map fun d => [.count d]
    else if word = ['B', 'U', 'I', 'L', 'D'] then noOperand .build rest
    else if word = ['P', 'A', 'C', 'K'] then (wholeOperand takeByte rest).map fun d => [.pack d]
    else if word = ['F', 'I', 'N', 'I', 'S', 'H'] then noOperand .finish rest
    else if word = ['I', 'O', 'E', 'R', 'R'] then noOperand .ioerr rest
    else if word = ['C', 'O', 'U', 'N', 'T', 'S'] then (wholeOperand takeSequence rest).map fun s => expandPseudo (.counts s)
    else if word = ['P', 'A', 'C', 'K', 'S'] then (wholeOperand takeSequence rest).map fun s => expandPseudo (.packs s)
    else if word = ['E', 'N', 'C', 'O', 'D', 'E'] then (wholeOperand takeSequence rest).map fun s => expandPseudo (.encode s)
    else none

/-- The hexadecimal digit character of a value below 16. -/
def hexChar (n : Nat) : Char := if n < 10 then Char.ofNat (48 + n) else Char.ofNat (55 + n)

/-- A byte in the syntax of R96, in hexadecimal. -/
def hexText (b : Byte) : List Char := ['0', 'x', hexChar (b.toNat / 16), hexChar (b.toNat % 16)]

/-- R96: the text of a command: its mnemonic, then for COUNT and PACK the operand. -/
def asmText : Instr → List Char
  | .nop => ['N', 'O', 'P']
  | .start => ['S', 'T', 'A', 'R', 'T']
  | .count d => ['C', 'O', 'U', 'N', 'T', ' '] ++ hexText d
  | .build => ['B', 'U', 'I', 'L', 'D']
  | .pack d => ['P', 'A', 'C', 'K', ' '] ++ hexText d
  | .finish => ['F', 'I', 'N', 'I', 'S', 'H']
  | .ioerr => ['I', 'O', 'E', 'R', 'R']

end Sys2Proof.Machine
end

