-- ==== Sys2Proof/Machine/HeaderParse.lean ====
section
/-! DEFINITION. The reference parse of a header (spec/44_header_serializer.md R228). It is a specification function,
not hardware: no command calls it. The parsed table is a code table whose empty entries are the absent byte values. -/

namespace Sys2Proof.Machine

/-- R228: the code bits of a list of digit bytes, if each is 0x30 or 0x31. -/
def parseDigits : List Byte → Option Bits
  | [] => some []
  | v :: vs =>
    if v = 0x30#8 then (parseDigits vs).map (false :: ·)
    else if v = 0x31#8 then (parseDigits vs).map (true :: ·)
    else none

/-- R228: `repeat n times`, on the bytes from position p on: the bytes left, the position and the table. -/
def parseEntries : Nat → List Byte → Nat → Table Bits → Option (List Byte × Nat × Table Bits)
  | 0, bytes, p, table => some (bytes, p, table)
  | n + 1, b :: len :: bytes, p, table =>
    if len = 0 ∨ bytes.length < len.toNat ∨ readAt table b ≠ [] then none
    else
      match parseDigits (bytes.take len.toNat) with
      | none => none
      | some code => parseEntries n (bytes.drop len.toNat) (p + 2 + len.toNat) (writeAt table b code)
  | _ + 1, _, _, _ => none

/-- R228: `ParseHeader(bytes)`: the table, the padding and the header's length, or none for FAIL. -/
def parseHeader : List Byte → Option (Table Bits × Nat × Nat)
  | [] => none
  | first :: bytes =>
    match parseEntries (first.toNat + 1) bytes 1 (fillTable []) with
    | some (padding :: _, p, table) => if padding.toNat > 7 then none else some (table, padding.toNat, p + 1)
    | _ => none

end Sys2Proof.Machine
end

