-- ==== Sys2Proof/Safety.lean ====
section
/-! DEFINITION. What holds between any two commands (spec/10_state.md R44), the paths of TREE
(spec/43_code_table_generator.md R200), what an error leaves recorded
(spec/60_exceptions.md R300), a host that performs commands in order (spec/20_memory.md R70), and the output of a run
(R74). Claims are stated in these terms. -/

namespace Sys2Proof.Machine

/-- The phase the run had reached: PHASE, or in ERROR the phase it failed in, since an error entry leaves every other
element as it was (R44 item 6, R301). -/
def stage (s : State) : Phase := if s.phase = .error then s.errPhase else s.phase

/-- How often pass 2 has presented b: FREQ[b] - REMAIN[b] (R44 item 4). -/
def packedOf (s : State) (b : Byte) : Nat := (readAt s.freq b).toNat - (readAt s.remain b).toNat

/-- R44 item 3: before BUILD every element BUILD or pass 2 writes is still clear. -/
structure Fresh (s : State) : Prop where
  code : ∀ b, readAt s.code b = []
  remain : ∀ b, readAt s.remain b = 0
  tree : s.tree = []
  totals : s.totalBits = 0 ∧ s.payloadBytes = 0 ∧ s.padding = 0 ∧ s.headerLen = 0 ∧ s.packedIn = 0
  buffer : s.bitBuf = []

/-- R44 item 4: after BUILD. R26, R27, R29 and R32 say what the elements BUILD wrote hold. -/
structure Built (s : State) : Prop where
  symbols : 1 ≤ nsym s.freq
  tree : s.tree = (treeBuild s.freq).1
  code : s.code = codeOf s.freq
  domain : ∀ b, readAt s.code b ≠ [] ↔ readAt s.freq b ≠ 0
  lengths : ∀ b, codeLen s.code b ≤ 255
  total : s.totalBits.toNat = totalCodeBits s.freq s.code
  wholeBytes : s.payloadBytes.toNat * 8 = s.totalBits.toNat + s.padding.toNat
  header : s.headerLen.toNat = 2 + 2 * nsym s.freq + sumBytes (codeLen s.code)
  owed : ∀ b, (readAt s.remain b).toNat ≤ (readAt s.freq b).toNat
  packed : s.packedIn.toNat = sumBytes (packedOf s)

/-- R44: the facts the commands keep, over the phase the run had reached. Item 4's law of BITBUF's length holds while
PHASE is PACKING; in DONE the padding has been pushed too and item 5 gives the length (log entry 14). -/
structure Inv (s : State) : Prop where
  counted : sumBytes (fun b => (readAt s.freq b).toNat) = s.origSize.toNat
  buffer : s.bitBuf.length ≤ 7
  fresh : stage s = .idle ∨ stage s = .counting → Fresh s
  built : stage s = .packing ∨ stage s = .done → Built s
  bits : stage s = .packing → s.bitBuf.length = sumBytes (fun b => packedOf s b * codeLen s.code b) % 8
  finished : stage s = .done → (∀ b, readAt s.remain b = 0) ∧ s.packedIn = s.origSize ∧ s.bitBuf = []
  failed : s.phase = .error → s.errCode ≠ .noError ∧ s.errPhase ≠ .error
  clean : s.phase ≠ .error → s.errCode = .noError ∧ s.errPhase = .idle ∧ s.errCmd = 0

/-- R43: the value of every element but PHASE and OUT, the same after reset and after START. -/
structure RunCleared (s : State) : Prop where
  freq : ∀ b, readAt s.freq b = 0
  origSize : s.origSize = 0
  code : ∀ b, readAt s.code b = []
  tree : s.tree = []
  remain : ∀ b, readAt s.remain b = 0
  totals : s.totalBits = 0 ∧ s.payloadBytes = 0 ∧ s.padding = 0 ∧ s.headerLen = 0 ∧ s.packedIn = 0
  bitBuf : s.bitBuf = []
  errors : s.errCode = .noError ∧ s.errPhase = .idle ∧ s.errCmd = 0

/-- R172: the key of a node of TREE. -/
def keyAt (tree : List Node) (i : Nat) : Key := ⟨((tree[i]?).map Node.count).getD 0, i⟩

/-- Node z is a child of node j of TREE. -/
def childOf (tree : List Node) (z j : Nat) : Prop :=
  ∃ c x y, tree[j]? = some (.internal c x y) ∧ (z = x ∨ some z = y)

/-- R200: the node of TREE that a string of bits leads to from node i: a 0 takes the left branch, a 1 the right one, and
the first bit is the branch taken at node i. -/
def followPath (tree : List Node) (i : Nat) : Bits → Option Node
  | [] => tree[i]?
  | bit :: rest =>
    match tree[i]?, bit with
    | some (.internal _ left _), false => followPath tree left rest
    | some (.internal _ _ (some right)), true => followPath tree right rest
    | _, _ => none

/-- R300, column "recorded": what ERRPHASE and ERRCMD hold beside each code. -/
def ErrorRecord (s : State) : Prop :=
  match s.errCode with
  | .noError => True
  | .emptyInput => s.errPhase = .counting ∧ s.errCmd = 0x00000300#32
  | .ioError => s.errCmd = 0x00000600#32
  | .formatOverflow => s.errPhase = .counting ∧ s.errCmd = 0x00000300#32
  | .inputMismatch =>
    s.errPhase = .packing ∧ (s.errCmd = 0x00000500#32 ∨ ∃ d : Byte, s.errCmd = 0x00000400#32 ||| d.setWidth 32)
  | .countOverflow => s.errPhase = .counting ∧ ∃ d : Byte, s.errCmd = 0x00000200#32 ||| d.setWidth 32
  | .illegalCommand =>
    (∃ why, decode s.errCmd = .illegal why) ∨ ∃ c, decode s.errCmd = .command c ∧ legal c s.errPhase = false

/-- A host that performs commands in order, each complete before the next (R68, R70). -/
def runCommands : List Instr → State → Host.Outcome State Fault Refusal
  | [], s => .next s
  | c :: cs, s =>
    match exec c s with
    | .next t => runCommands cs t
    | .fault r => .fault r
    | .refused r => .refused r

/-- The commands of a run whose pass 1 presents S and whose pass 2 presents T (R342 steps 3 to 7). -/
def twoPass (S T : List Byte) : List Instr := .start :: S.map .count ++ .build :: T.map .pack ++ [.finish]

/-- The host action of a command: its word written to CMD (R90). -/
def commandWrite (c : Instr) : HostAction := .write 0x000#12 4 (encode c)

/-- R74: the output of the run that began with `atStart`, the suffix of OUT emitted since. -/
def runOutput (atStart s : State) : List Byte := s.out.drop atStart.out.length

/-- R74: the output of a run is valid only when the run reached DONE. -/
def outputValid (s : State) : Bool := s.phase == .done

/-- A byte's bits, most significant first (R7, R66). -/
def byteBits (v : Byte) : Bits := (List.range 8).map fun i => v.getLsbD (7 - i)

/-- No code of a counted byte value is a prefix of another's (00_scope glossary, Prefix code). -/
def PrefixFree (freq : Table Word) (code : Table Bits) : Prop :=
  ∀ a b, readAt freq a ≠ 0 → readAt freq b ≠ 0 → a ≠ b → ¬ readAt code a <+: readAt code b

end Sys2Proof.Machine
end

