-- ==== Sys2Proof/Certificates/Slice0/Obligations.lean ====
section
/-! DEFINITION. What is claimed of HUFFENC, for the provers. Each docstring names the rule of spec/ or the section of
a spec file it comes from. A rule the spec marks "[derived: ...]" is the spec's own inference: such a claim cites the
section. Claims hold in every state; where a claim could fail only in states no run reaches, `Inv` is its premise, and
`InvariantKeptByEveryStep` and `InvariantHoldsAtReset` say that a run stays within it. -/

open Sys2Proof Sys2Proof.Machine

/-! ### Encoding -/

/-- The seven rows of the opcode map (30_encoding.md section 2), each by a word written out from it. -/
def Obligations.OpcodeMapWordsDecode : Prop :=
  decode 0x00000000#32 = .command .nop ∧
  decode 0x00000100#32 = .command .start ∧
  decode 0x00000241#32 = .command (.count 0x41#8) ∧
  decode 0x00000300#32 = .command .build ∧
  decode 0x000004FF#32 = .command (.pack 0xFF#8) ∧
  decode 0x00000500#32 = .command .finish ∧
  decode 0x00000600#32 = .command .ioerr

/-- Decoding and encoding agree in both directions, for every command and every word (30_encoding.md sections 2 and 4). -/
def Obligations.DecodeAndEncodeAgree : Prop :=
  (∀ c : Instr, c.wellFormed = true ∧ decode (encode c) = .command c) ∧
  ∀ (w : Word) (c : Instr), decode w = .command c → encode c = w

/-- R92: a word matches a row, `(w & mask) = match`, exactly when it decodes to that row's command; no two rows match
the same word; and a word that decodes to a command matches a row. -/
def Obligations.OpcodeMapMatchesDecode : Prop :=
  (∀ (w : Word) (r : OpcodeRow), r ∈ opcodeMap →
    (w &&& r.mask = r.pattern ↔ ∃ c, decode w = .command c ∧ opcodeOf c = r.op)) ∧
  (∀ (w : Word) (r r' : OpcodeRow), r ∈ opcodeMap → r' ∈ opcodeMap →
    w &&& r.mask = r.pattern → w &&& r'.mask = r'.pattern → r = r') ∧
  ∀ (w : Word) (c : Instr), decode w = .command c → ∃ r ∈ opcodeMap, w &&& r.mask = r.pattern

/-- R95: the illegal words are those with RSVD ≠ 0, with OP 0x07 to 0xFF, or with DATA ≠ 0 and OP neither 0x02 nor 0x04;
such a word raises ILLEGAL_COMMAND unless PHASE = ERROR, where it is ignored; no word but NOP's own is NOP. -/
def Obligations.IllegalWordsRaiseIllegalCommand : Prop :=
  ∀ w : Word,
    ((∃ why, decode w = .illegal why) ↔
      fieldRsvd w ≠ 0 ∨ 7 ≤ (fieldOp w).toNat ∨ (fieldData w ≠ 0 ∧ fieldOp w ≠ 0x02#8 ∧ fieldOp w ≠ 0x04#8)) ∧
    (decode w = .command .nop → w = 0x00000000#32) ∧
    ∀ s : State, (∃ why, decode w = .illegal why) →
      (s.phase ≠ .error → dispatchWord w s =
        .next { s with errPhase := s.phase, errCode := .illegalCommand, errCmd := w, phase := .error }) ∧
      (s.phase = .error → dispatchWord w s = .next s)

/-- 30_encoding.md section 5: the text of a command in the assembler's syntax assembles to that command. How the text
writes the operand (hexadecimal) and spaces is the model's choice (log entry 13). -/
def Obligations.AssemblerReadsCommandText : Prop :=
  ∀ c : Instr, assembleLine (asmText c) = some [c]

/-! ### Steps and the bus -/

/-- A step with the write of a word to CMD pending runs exactly the command the word decodes to, on the state with the
write taken off the queue and accepted; withFetchWord places such a write (20_memory.md section 2, 40_command_control.md
section 1; the queue and the answer are the model's own fields, log entries 1 and 2). -/
def Obligations.StepRunsDecodedCommand : Prop :=
  (∀ (s : State) (w : Word) (rest : List HostAction) (c : Instr),
    s.hostQueue = .write 0x000#12 4 w :: rest → decode w = .command c →
      step s = exec c { s with hostQueue := rest, busResponse := some .accepted }) ∧
  ∀ (s : State) (w : Word) (c : Instr), decode w = .command c →
    step (s.withFetchWord 32 w.toNat) = exec c { s with busResponse := some .accepted }

/-- With no host action pending the block waits: nothing changes (70_reset_and_hazards.md section 1, "the block waits for
a command"; that waiting is a step of its own is the model's choice, log entry 3). -/
def Obligations.StepWaitsWithNothingPending : Prop :=
  ∀ s : State, s.hostQueue = [] → step s = .next s

/-- Every step answers a next state: HUFFENC has no error that stops it (60_exceptions.md section 2: an error is a state
the host reads; 20_memory.md section 2: a bus error is a response). -/
def Obligations.EveryStepAnswersNext : Prop :=
  ∀ s : State, ∃ t, step s = .next t

/-- R62: a legal read returns the value of the register, with no side effect: every register then reads as before. -/
def Obligations.BusReadReturnsRegister : Prop :=
  ∀ (s : State) (off : Offset) (rest : List HostAction),
    s.hostQueue = .read off 4 :: rest → off.toNat % 4 = 0 →
      ∃ t, step s = .next t ∧
        t = { s with hostQueue := rest, busResponse := some (.data (readRegister off s)) } ∧
        ∀ off', readRegister off' t = readRegister off' s

/-- R61: an access that does not move 4 bytes, or whose offset is not a multiple of 4, gets a bus error and changes no
state of HUFFENC. -/
def Obligations.IllegalAccessIsBusError : Prop :=
  ∀ (s : State) (off : Offset) (size : Nat) (rest : List HostAction), size ≠ 4 ∨ off.toNat % 4 ≠ 0 →
    (s.hostQueue = .read off size :: rest →
      step s = .next { s with hostQueue := rest, busResponse := some .busError }) ∧
    ∀ value, s.hostQueue = .write off size value :: rest →
      step s = .next { s with hostQueue := rest, busResponse := some .busError }

/-- R63: a legal write to offset 0x000 executes the command; to any other offset it is accepted and ignored. -/
def Obligations.OnlyCmdWritesHaveEffect : Prop :=
  ∀ (s : State) (off : Offset) (value : Word) (rest : List HostAction),
    s.hostQueue = .write off 4 value :: rest → off.toNat % 4 = 0 →
      (off = 0x000#12 →
        step s = dispatchWord value { s with hostQueue := rest, busResponse := some .accepted }) ∧
      (off ≠ 0x000#12 → step s = .next { s with hostQueue := rest, busResponse := some .accepted })

/-- R120, R121: the dispatch of a word. The legality table is R121's; in ERROR only START is performed; ERRCMD records
the word itself. -/
def Obligations.DispatchFollowsPhaseTable : Prop :=
  (∀ (c : Instr) (p : Phase), legal c p = true ↔
    c = .nop ∨ c = .start ∨ c = .ioerr ∨
    (p = .counting ∧ (c = .build ∨ ∃ d, c = .count d)) ∨
    (p = .packing ∧ (c = .finish ∨ ∃ d, c = .pack d))) ∧
  ∀ (w : Word) (s : State),
    (s.phase = .error → decode w ≠ .command .start → dispatchWord w s = .next s) ∧
    (s.phase ≠ .error → (∀ c, decode w = .command c → legal c s.phase = false) → dispatchWord w s =
      .next { s with errPhase := s.phase, errCode := .illegalCommand, errCmd := w, phase := .error }) ∧
    ∀ c, decode w = .command c → (s.phase ≠ .error ∧ legal c s.phase = true) ∨ c = .start →
      dispatchWord w s = exec c s

/-- 20_memory.md section 4 (R68, R70): the host's command writes are performed one a step, in the order it issues them,
each whole before the next. The commands' effect does not depend on what else the host has queued. -/
def Obligations.HostWritesArePerformedInOrder : Prop :=
  ∀ (cs : List Instr) (s : State) (rest : List HostAction), cs ≠ [] →
    s.hostQueue = cs.map commandWrite ++ rest →
      ∃ t : State, runCommands cs s = .next t ∧
        Host.Core.run Sys2Proof.core cs.length s =
          .next ({ t with hostQueue := rest, busResponse := some .accepted } : State)

/-! ### Reset and the register map -/

/-- R43: what reset and START leave in every element, that neither changes OUT, and which commands are legal after
reset. -/
def Obligations.ResetAndStartValues : Prop :=
  (∀ (s : State) (rest : List HostAction), s.hostQueue = .reset :: rest →
    ∃ t, step s = .next t ∧ t.phase = .idle ∧ RunCleared t ∧ t.out = s.out ∧ t.hostQueue = rest) ∧
  (∀ s : State, ∃ t, exec .start s = .next t ∧ t.phase = .counting ∧ RunCleared t ∧ t.out = s.out) ∧
  (State.reset.phase = .idle ∧ RunCleared State.reset) ∧
  ∀ c : Instr, legal c .idle = true ↔ c = .nop ∨ c = .start ∨ c = .ioerr

/-- 10_state.md section 3, column "reset": after reset every register reads 0 but ID, which reads 0x48554601. -/
def Obligations.ResetRegistersRead : Prop :=
  ∀ off : Offset, readRegister off State.reset = if off = 0x034#12 then 0x48554601#32 else 0x00000000#32

/-- 10_state.md section 3: the register map's counters and totals, ID, and CMD. NSYM is the number of byte values with a
nonzero count. -/
def Obligations.RegisterMapReads : Prop :=
  ∀ s : State,
    readRegister 0x000#12 s = 0 ∧
    readRegister 0x010#12 s = s.origSize ∧
    (readRegister 0x014#12 s).toNat = (allBytes.toFinset.filter fun b => readAt s.freq b ≠ 0).card ∧
    (readRegister 0x01C#12 s).toNat * 2 ^ 32 + (readRegister 0x018#12 s).toNat = s.totalBits.toNat ∧
    (readRegister 0x024#12 s).toNat * 2 ^ 32 + (readRegister 0x020#12 s).toNat = s.payloadBytes.toNat ∧
    (readRegister 0x028#12 s).toNat = s.padding.toNat ∧
    readRegister 0x02C#12 s = s.headerLen ∧
    readRegister 0x030#12 s = s.packedIn ∧
    readRegister 0x034#12 s = 0x48554601#32

/-- R35: the fields of STATUS, with PHASE's encoding (R22). -/
def Obligations.StatusFields : Prop :=
  ∀ s : State,
    (readRegister 0x004#12 s).extractLsb' 0 3 =
      (match s.phase with | .idle => 0#3 | .counting => 1#3 | .packing => 2#3 | .done => 3#3 | .error => 7#3) ∧
    (readRegister 0x004#12 s).extractLsb' 3 1 = (if s.phase = .error then 1#1 else 0#1) ∧
    (readRegister 0x004#12 s).extractLsb' 4 1 = (if s.phase = .done then 1#1 else 0#1) ∧
    (readRegister 0x004#12 s).extractLsb' 5 3 = 0#3 ∧
    (s.bitBuf.length ≤ 7 → ((readRegister 0x004#12 s).extractLsb' 8 3).toNat = s.bitBuf.length) ∧
    (readRegister 0x004#12 s).extractLsb' 11 21 = 0#21

/-- R36, R37: ERRINFO and ERRCMD. After an error entry they read its code, the phase held just before it, and the
command word; in a state a run reaches they read 0 when PHASE ≠ ERROR. -/
def Obligations.ErrorRegistersReadBack : Prop :=
  (∀ (w : Word) (s t : State), s.phase ≠ .error → dispatchWord w s = .next t → t.phase = .error →
    (readRegister 0x008#12 t).extractLsb' 0 8 =
      (match t.errCode with
        | .noError => 0#8 | .emptyInput => 1#8 | .ioError => 2#8 | .formatOverflow => 3#8
        | .inputMismatch => 4#8 | .countOverflow => 5#8 | .illegalCommand => 6#8) ∧
    t.errCode ≠ .noError ∧
    (readRegister 0x008#12 t).extractLsb' 8 3 = (readRegister 0x004#12 s).extractLsb' 0 3 ∧
    (readRegister 0x008#12 t).extractLsb' 11 21 = 0#21 ∧
    readRegister 0x00C#12 t = w) ∧
  ∀ s : State, Inv s → s.phase ≠ .error → readRegister 0x008#12 s = 0 ∧ readRegister 0x00C#12 s = 0

/-- R40, R41: the FREQ window reads the counts in every phase; the CODELEN window reads the code lengths, and 0 until
BUILD has succeeded. -/
def Obligations.WindowsReadTables : Prop :=
  (∀ (s : State) (b : Byte), readRegister (BitVec.ofNat 12 (0x400 + 4 * b.toNat)) s = readAt s.freq b) ∧
  ∀ (s : State) (b : Byte), Inv s →
    (readRegister (BitVec.ofNat 12 (0x800 + 4 * b.toNat)) s).toNat = codeLen s.code b ∧
    (readRegister (BitVec.ofNat 12 (0x800 + 4 * b.toNat)) s).extractLsb' 8 24 = 0#24 ∧
    (stage s = .idle ∨ stage s = .counting → readRegister (BitVec.ofNat 12 (0x800 + 4 * b.toNat)) s = 0)

/-- R42: the reserved offsets read 0 and ignore writes, and the reserved fields of defined registers read 0. -/
def Obligations.ReservedReadsZero : Prop :=
  (∀ (s : State) (off : Offset), off.toNat % 4 = 0 →
    (0x038 ≤ off.toNat ∧ off.toNat ≤ 0x3FC) ∨ (0xC00 ≤ off.toNat ∧ off.toNat ≤ 0xFFC) →
      readRegister off s = 0 ∧
      ∀ value rest, s.hostQueue = .write off 4 value :: rest →
        step s = .next { s with hostQueue := rest, busResponse := some .accepted }) ∧
  ∀ s : State,
    (readRegister 0x004#12 s).extractLsb' 5 3 = 0#3 ∧ (readRegister 0x004#12 s).extractLsb' 11 21 = 0#21 ∧
    (readRegister 0x008#12 s).extractLsb' 11 21 = 0#21 ∧ (readRegister 0x014#12 s).extractLsb' 9 23 = 0#23 ∧
    (readRegister 0x028#12 s).extractLsb' 3 29 = 0#29 ∧
    ∀ b : Byte, (readRegister (BitVec.ofNat 12 (0x800 + 4 * b.toNat)) s).extractLsb' 8 24 = 0#24

/-! ### The commands -/

/-- R122: NOP changes nothing, in every phase; its word is 0x00000000 and no other word is NOP. -/
def Obligations.NopChangesNothing : Prop :=
  (∀ s : State, exec .nop s = .next s) ∧ encode .nop = 0x00000000#32 ∧
  ∀ w : Word, decode w = .command .nop → w = 0x00000000#32

/-- R123: START clears the run in every phase and emits nothing; a second START changes nothing more; STATUS reads
0x00000001 and ERRINFO and ERRCMD read 0 after it. No other command leaves ERROR. -/
def Obligations.StartBeginsRun : Prop :=
  encode .start = 0x00000100#32 ∧
  ∀ s : State, ∃ t, exec .start s = .next t ∧ t.phase = .counting ∧ RunCleared t ∧
    t.out = s.out ∧ t.hostQueue = s.hostQueue ∧ t.busResponse = s.busResponse ∧
    exec .start t = .next t ∧
    readRegister 0x004#12 t = 0x00000001#32 ∧ readRegister 0x008#12 t = 0 ∧ readRegister 0x00C#12 t = 0 ∧
    (s.phase = .error → ∀ c, c ≠ .start → exec c s = .next s)

/-- R124: IOERR raises IO_ERROR in every phase but ERROR, where it is ignored. -/
def Obligations.IoerrRaisesIoError : Prop :=
  encode .ioerr = 0x00000600#32 ∧
  ∀ s : State,
    (s.phase ≠ .error → exec .ioerr s =
      .next { s with errPhase := s.phase, errCode := .ioError, errCmd := 0x00000600#32, phase := .error }) ∧
    (s.phase = .error → exec .ioerr s = .next s)

/-- R150: COUNT d in COUNTING adds one to FREQ[d] and to ORIG_SIZE and changes nothing else; it raises COUNT_OVERFLOW
when ORIG_SIZE = 2^32 - 1 and ILLEGAL_COMMAND in another phase. -/
def Obligations.CountAddsOne : Prop :=
  ∀ (d : Byte) (s : State), encode (.count d) = 0x00000200#32 ||| d.setWidth 32 ∧
    (s.phase = .counting → s.origSize ≠ 0xFFFFFFFF#32 →
      ∃ t, exec (.count d) s = .next t ∧
        (∀ b, readAt t.freq b = if b = d then readAt s.freq d + 1 else readAt s.freq b) ∧
        t.origSize = s.origSize + 1 ∧
        t = { s with freq := t.freq, origSize := t.origSize }) ∧
    (s.phase = .counting → s.origSize = 0xFFFFFFFF#32 → exec (.count d) s =
      .next { s with errPhase := .counting, errCode := .countOverflow, errCmd := encode (.count d), phase := .error }) ∧
    (s.phase ≠ .counting → s.phase ≠ .error → exec (.count d) s =
      .next { s with errPhase := s.phase, errCode := .illegalCommand, errCmd := encode (.count d), phase := .error })

/-- 10_state.md section 6, first row: in a state a run reaches, COUNT's two additions are exact: no count wraps. -/
def Obligations.CountNeverWraps : Prop :=
  ∀ (d : Byte) (s : State), Inv s → s.phase = .counting → s.origSize ≠ 0xFFFFFFFF#32 →
    ∃ t, exec (.count d) s = .next t ∧
      (readAt t.freq d).toNat = (readAt s.freq d).toNat + 1 ∧ t.origSize.toNat = s.origSize.toNat + 1

/-- R225, with R204 to R206 and R220 to R223: BUILD in COUNTING with at least one byte counted always succeeds. It leaves
TreeBuild's tree and CodeGen's code, the exact totals, the header at the end of OUT and its length in HEADER_LEN, REMAIN
equal to FREQ, and PHASE = PACKING, and changes nothing else. With no byte counted it raises EMPTY_INPUT, and out of
COUNTING ILLEGAL_COMMAND. -/
def Obligations.BuildBuildsCodeAndHeader : Prop :=
  encode .build = 0x00000300#32 ∧
  ∀ s : State,
    (s.phase = .counting → nsym s.freq ≠ 0 →
      ∃ (t : State) (h : List Byte), exec .build s = .next t ∧
        t.phase = .packing ∧
        t.tree = (treeBuild s.freq).1 ∧ t.code = codeGen (treeBuild s.freq).1 (treeBuild s.freq).2 ∧
        t.totalBits.toNat = sumBytes (fun b => (readAt s.freq b).toNat * (readAt t.code b).length) ∧
        t.padding.toNat = (8 - t.totalBits.toNat % 8) % 8 ∧
        t.payloadBytes.toNat = (t.totalBits.toNat + 7) / 8 ∧
        h = BitVec.ofNat 8 (nsym s.freq - 1) ::
          allBytes.flatMap (fun b => if (readAt t.code b).length > 0 then
            b :: BitVec.ofNat 8 (readAt t.code b).length ::
              (readAt t.code b).map (fun x => if x then 0x31#8 else 0x30#8) else []) ++ [t.padding.setWidth 8] ∧
        t.out = s.out ++ h ∧ t.headerLen.toNat = h.length ∧
        t.remain = s.freq ∧
        t = { s with
          phase := t.phase, tree := t.tree, code := t.code, totalBits := t.totalBits, padding := t.padding
          payloadBytes := t.payloadBytes, out := t.out, headerLen := t.headerLen, remain := t.remain }) ∧
    (s.phase = .counting → nsym s.freq = 0 → exec .build s =
      .next { s with errPhase := .counting, errCode := .emptyInput, errCmd := 0x00000300#32, phase := .error }) ∧
    (s.phase ≠ .counting → s.phase ≠ .error → exec .build s =
      .next { s with errPhase := s.phase, errCode := .illegalCommand, errCmd := 0x00000300#32, phase := .error })

/-- R226: when BUILD raises an error, whatever the error, none of its writes take effect and it emits no byte; with no
byte counted it does raise one, so OUT stays as it was. -/
def Obligations.FailedBuildChangesNothingElse : Prop :=
  ∀ s : State, s.phase ≠ .error →
    (∀ t, exec .build s = .next t → t.phase = .error →
      t = { s with errPhase := s.phase, errCode := t.errCode, errCmd := 0x00000300#32, phase := .error }) ∧
    (s.phase = .counting → nsym s.freq = 0 →
      ∃ t, exec .build s = .next t ∧ t.phase = .error ∧ t.errCode = .emptyInput ∧ t.out = s.out)

/-- 43_code_table_generator.md section 1, on code lengths: every code of a counted byte value has 1 to 255 bits, so
CodeTooLong never holds and no command ever raises FORMAT_OVERFLOW. -/
def Obligations.FormatOverflowNeverRaised : Prop :=
  (∀ (freq : Table Word) (b : Byte), codeLen (codeOf freq) b ≤ 255 ∧
    (readAt freq b ≠ 0 → 1 ≤ codeLen (codeOf freq) b)) ∧
  ∀ (c : Instr) (s t : State), s.errCode ≠ .formatOverflow → exec c s = .next t → t.errCode ≠ .formatOverflow

/-- R252: PACK d in PACKING with REMAIN[d] > 0 takes one from REMAIN[d], adds one to PACKED_IN, and pushes CODE[d]: the
bits of the bytes it emits, followed by the new BITBUF, are the old BITBUF followed by CODE[d]. Nothing else changes. In a
state a run reaches PACKED_IN stays at most ORIG_SIZE. It raises INPUT_MISMATCH when REMAIN[d] = 0 and ILLEGAL_COMMAND
out of PACKING. STATUS.BITCNT reads the new length of BITBUF. -/
def Obligations.PackPushesCode : Prop :=
  ∀ (d : Byte) (s : State), encode (.pack d) = 0x00000400#32 ||| d.setWidth 32 ∧
    (s.phase = .packing → readAt s.remain d ≠ 0 →
      ∃ (t : State) (bytes : List Byte), exec (.pack d) s = .next t ∧
        (∀ b, readAt t.remain b = if b = d then readAt s.remain d - 1 else readAt s.remain b) ∧
        t.packedIn = s.packedIn + 1 ∧
        t.out = s.out ++ bytes ∧
        bytes.flatMap byteBits ++ t.bitBuf = s.bitBuf ++ readAt s.code d ∧
        bytes.length = (s.bitBuf.length + codeLen s.code d) / 8 ∧ t.bitBuf.length ≤ 7 ∧
        ((readRegister 0x004#12 t).extractLsb' 8 3).toNat = t.bitBuf.length ∧
        (Inv s → t.packedIn.toNat ≤ t.origSize.toNat) ∧
        t = { s with remain := t.remain, packedIn := t.packedIn, out := t.out, bitBuf := t.bitBuf }) ∧
    (s.phase = .packing → readAt s.remain d = 0 → exec (.pack d) s =
      .next { s with errPhase := .packing, errCode := .inputMismatch, errCmd := encode (.pack d), phase := .error }) ∧
    (s.phase ≠ .packing → s.phase ≠ .error → exec (.pack d) s =
      .next { s with errPhase := s.phase, errCode := .illegalCommand, errCmd := encode (.pack d), phase := .error })

/-- 45_bit_packer.md section 3: FINISH in PACKING with PACKED_IN = ORIG_SIZE pushes PADDING zero bits and enters DONE, changing nothing else; in
a state a run reaches it emits exactly one byte when PADDING > 0 and none when PADDING = 0, and BITBUF ends empty, so
STATUS reads 0x00000013. It raises INPUT_MISMATCH when PACKED_IN ≠ ORIG_SIZE and ILLEGAL_COMMAND out of PACKING. -/
def Obligations.FinishPadsLastByte : Prop :=
  encode .finish = 0x00000500#32 ∧
  ∀ s : State,
    (s.phase = .packing → s.packedIn = s.origSize →
      ∃ (t : State) (bytes : List Byte), exec .finish s = .next t ∧ t.phase = .done ∧
        t.out = s.out ++ bytes ∧
        bytes.flatMap byteBits ++ t.bitBuf = s.bitBuf ++ List.replicate s.padding.toNat false ∧
        t.bitBuf.length ≤ 7 ∧
        t = { s with phase := .done, out := t.out, bitBuf := t.bitBuf } ∧
        (Inv s → t.bitBuf = [] ∧ (bytes.length = if s.padding = 0 then 0 else 1) ∧
          readRegister 0x004#12 t = 0x00000013#32)) ∧
    (s.phase = .packing → s.packedIn ≠ s.origSize → exec .finish s =
      .next { s with errPhase := .packing, errCode := .inputMismatch, errCmd := 0x00000500#32, phase := .error }) ∧
    (s.phase ≠ .packing → s.phase ≠ .error → exec .finish s =
      .next { s with errPhase := s.phase, errCode := .illegalCommand, errCmd := 0x00000500#32, phase := .error })

/-- R250, R251: a Push of k bits onto a buffer of c bits emits (c + k) div 8 bytes and leaves (c + k) mod 8 bits; the
emitted bytes, each most significant bit first, and then the buffer are the bits in order. -/
def Obligations.PushEmitsWholeBytesInOrder : Prop :=
  ∀ (bits : Bits) (s : State), ∃ bytes : List Byte,
    (push bits s).out = s.out ++ bytes ∧
    bytes.flatMap (fun v => [v.getLsbD 7, v.getLsbD 6, v.getLsbD 5, v.getLsbD 4,
      v.getLsbD 3, v.getLsbD 2, v.getLsbD 1, v.getLsbD 0]) ++ (push bits s).bitBuf = s.bitBuf ++ bits ∧
    bytes.length = (s.bitBuf.length + bits.length) / 8 ∧
    (push bits s).bitBuf.length = (s.bitBuf.length + bits.length) % 8 ∧
    (push bits s).bitBuf.length ≤ 7

/-- 45_bit_packer.md section 2, corner cases: in a state a run reaches one PACK emits at most 6 bytes. -/
def Obligations.PackEmitsAtMostSixBytes : Prop :=
  ∀ (d : Byte) (s t : State), Inv s → s.phase = .packing → exec (.pack d) s = .next t →
    t.out.length ≤ s.out.length + 6

/-! ### Phases and errors -/

/-- 40_command_control.md section 5: every command answers a next state whose phase is the table's, row by row. -/
def Obligations.PhaseMovesOnlyByTable : Prop :=
  ∀ (c : Instr) (s : State), ∃ t, exec c s = .next t ∧
    (s.phase = .error → t.phase = if c = .start then .counting else .error) ∧
    (s.phase ≠ .error → t.phase =
      match c with
      | .nop => s.phase
      | .start => .counting
      | .ioerr => .error
      | .count _ => if s.phase = .counting ∧ s.origSize ≠ 0xFFFFFFFF#32 then .counting else .error
      | .build => if s.phase = .counting ∧ nsym s.freq ≠ 0 then .packing else .error
      | .pack d => if s.phase = .packing ∧ readAt s.remain d ≠ 0 then .packing else .error
      | .finish => if s.phase = .packing ∧ s.packedIn = s.origSize then .done else .error)

/-- R301, R306: an error entry records the phase, the code and the word, sets PHASE = ERROR, and makes no other state
change: it emits no byte. -/
def Obligations.ErrorEntryIsAtomic : Prop :=
  ∀ (w : Word) (s t : State), s.phase ≠ .error → dispatchWord w s = .next t → t.phase = .error →
    t = { s with errPhase := s.phase, errCode := t.errCode, errCmd := w, phase := .error } ∧ t.errCode ≠ .noError

/-- R303: the only ways out of ERROR are START, which begins a new run and clears ERRCODE, ERRPHASE and ERRCMD, and
reset. -/
def Obligations.ErrorLeftOnlyByStartOrReset : Prop :=
  ∀ s t : State, s.phase = .error → step s = .next t → t.phase ≠ .error →
    (∃ rest, s.hostQueue = .reset :: rest ∧ t.phase = .idle) ∨
    ∃ rest, s.hostQueue = .write 0x000#12 4 0x00000100#32 :: rest ∧ t.phase = .counting ∧
      t.errCode = .noError ∧ t.errPhase = .idle ∧ t.errCmd = 0

/-- 60_exceptions.md section 1, column "recorded": every step keeps ERRPHASE and ERRCMD consistent with ERRCODE, and reset
leaves them so. -/
def Obligations.ErrorRecordKept : Prop :=
  ErrorRecord State.reset ∧ ∀ s t : State, ErrorRecord s → step s = .next t → ErrorRecord t

/-- 20_memory.md section 5: OUT is append-only: no step removes, reorders or rewrites a byte of it; and only BUILD, PACK and FINISH emit. -/
def Obligations.OutIsAppendOnly : Prop :=
  ∀ s t : State, step s = .next t →
    ∃ bytes : List Byte, t.out = s.out ++ bytes ∧
      (bytes ≠ [] → ∃ w rest c, s.hostQueue = .write 0x000#12 4 w :: rest ∧ decode w = .command c ∧
        (c = .build ∨ c = .finish ∨ ∃ d, c = .pack d))

/-- 10_state.md section 2 and 20_memory.md section 4: once pass 1 has ended, FREQ, ORIG_SIZE, CODE, TREE, the totals,
PADDING and HEADER_LEN are written by no step but START and reset. -/
def Obligations.TablesFrozenAfterBuild : Prop :=
  ∀ s t : State, s.phase ≠ .idle → s.phase ≠ .counting → step s = .next t →
    (∀ rest, s.hostQueue ≠ .reset :: rest) →
    (∀ rest, s.hostQueue ≠ .write 0x000#12 4 0x00000100#32 :: rest) →
      t.freq = s.freq ∧ t.origSize = s.origSize ∧ t.code = s.code ∧ t.tree = s.tree ∧ t.totalBits = s.totalBits ∧
      t.payloadBytes = s.payloadBytes ∧ t.padding = s.padding ∧ t.headerLen = s.headerLen

/-! ### The invariant -/

/-- 10_state.md section 5: the invariant holds right after reset. -/
def Obligations.InvariantHoldsAtReset : Prop := Inv State.reset

/-- 10_state.md section 5: every step keeps the invariant, from every state that meets it. -/
def Obligations.InvariantKeptByEveryStep : Prop :=
  ∀ s t : State, Inv s → step s = .next t → Inv t

/-! ### The tree and the code -/

/-- R172: extraction takes the key that is least by count and then by id; ids being unique, that is one key, and the
others stay. -/
def Obligations.ExtractionTakesLeastKey : Prop :=
  ∀ (k : Key) (q : List Key), ((k :: q).map Key.id).Nodup →
    ((extractMin k q).1 :: (extractMin k q).2).Perm (k :: q) ∧
    ∀ j ∈ (extractMin k q).2, (extractMin k q).1.count.toNat < j.count.toNat ∨
      ((extractMin k q).1.count = j.count ∧ (extractMin k q).1.id < j.id)

/-- R171: TREE begins with one leaf for each byte value with a nonzero count, in ascending byte value, holding that
count. -/
def Obligations.LeavesAscendByByteValue : Prop :=
  ∀ freq : Table Word, 1 ≤ nsym freq →
    (treeBuild freq).1.take (nsym freq) =
      (allBytes.filter fun b => readAt freq b ≠ 0).map fun b => .leaf b (readAt freq b)

/-- R173: every internal node of TREE, for N ≥ 2, merges the two live nodes of least key, the smaller on the left, into
the exact sum of their counts where all counts together are at most ORIG_SIZE's largest value, 2^32 - 1, as `Inv` says of
every run (`Inv.counted`). A node is live when it exists already and is the child of no earlier node. -/
def Obligations.MergesTakeTwoLeastLiveNodes : Prop :=
  ∀ (freq : Table Word) (i x : Nat) (c : Word) (right : Option Nat), 2 ≤ nsym freq →
    (treeBuild freq).1[i]? = some (.internal c x right) →
      ∃ y, right = some y ∧ x < i ∧ y < i ∧
        (sumBytes (fun b => (readAt freq b).toNat) ≤ 2 ^ 32 - 1 →
          c.toNat = (keyAt (treeBuild freq).1 x).count.toNat + (keyAt (treeBuild freq).1 y).count.toNat) ∧
        (keyAt (treeBuild freq).1 x).less (keyAt (treeBuild freq).1 y) = true ∧
        (∀ j < i, ¬ childOf (treeBuild freq).1 x j ∧ ¬ childOf (treeBuild freq).1 y j) ∧
        ∀ z < i, z ≠ x → z ≠ y → (∀ j < i, ¬ childOf (treeBuild freq).1 z j) →
          (keyAt (treeBuild freq).1 y).less (keyAt (treeBuild freq).1 z) = true

/-- 42_huffman_tree_builder.md section 1, on termination: for N ≥ 2 TREE holds N leaves, ids 0 to N - 1, and N - 1 internal
nodes, ids N to 2N - 2; the root is the last; its count is the sum of all counts where that is at most 2^32 - 1, as it is
in every run (`Inv.counted`). -/
def Obligations.TreeHasLeavesThenInternalNodes : Prop :=
  ∀ freq : Table Word, 2 ≤ nsym freq →
    (treeBuild freq).1.length = 2 * nsym freq - 1 ∧ (treeBuild freq).2 = 2 * nsym freq - 2 ∧
    (∀ i < nsym freq, ∃ b n, (treeBuild freq).1[i]? = some (.leaf b n)) ∧
    (∀ i, nsym freq ≤ i → i ≤ 2 * nsym freq - 2 → ∃ c x y, (treeBuild freq).1[i]? = some (.internal c x (some y))) ∧
    (sumBytes (fun b => (readAt freq b).toNat) ≤ 2 ^ 32 - 1 →
      (keyAt (treeBuild freq).1 (treeBuild freq).2).count.toNat = sumBytes (fun b => (readAt freq b).toNat))

/-- 42_huffman_tree_builder.md section 2, on widths: where all counts together are at most 2^32 - 1, as `Inv` says of
every run, every node's count is at most their sum and no addition of two counts wraps. For every frequency table TREE
has at most 511 nodes and every child's id is at most 510. -/
def Obligations.NodeCountsFitWidth : Prop :=
  ∀ freq : Table Word,
    (treeBuild freq).1.length ≤ 511 ∧
    (∀ (i x : Nat) (c : Word) (right : Option Nat), (treeBuild freq).1[i]? = some (.internal c x right) →
      x ≤ 510 ∧ ∀ y, right = some y → y ≤ 510) ∧
    (sumBytes (fun b => (readAt freq b).toNat) ≤ 2 ^ 32 - 1 → ∀ i,
      (keyAt (treeBuild freq).1 i).count.toNat ≤ sumBytes (fun b => (readAt freq b).toNat) ∧
      ∀ (c : Word) (x y : Nat), (treeBuild freq).1[i]? = some (.internal c x (some y)) →
        (keyAt (treeBuild freq).1 x).count.toNat + (keyAt (treeBuild freq).1 y).count.toNat < 2 ^ 32)

/-- R175: with one byte value counted, TREE is its leaf, id 0, and one synthetic root, id 1, with the leaf's count, the
leaf on the left and no right child; the byte value's code is "0". -/
def Obligations.SingleSymbolWrapped : Prop :=
  ∀ freq : Table Word, nsym freq = 1 →
    ∃ b, readAt freq b ≠ 0 ∧
      treeBuild freq = ([.leaf b (readAt freq b), .internal (readAt freq b) 0 none], 1) ∧
      readAt (codeOf freq) b = [false] ∧ ∀ c, c ≠ b → readAt (codeOf freq) c = []

/-- R200: the code of each counted byte value leads from the root to its leaf, which holds its count, a 0 taking the left
branch and a 1 the right one; a path that leads to a leaf is the code of the leaf's byte value; and a byte value not
counted has no code. BUILD leaves these codes in CODE and the tree they are paths of in TREE, the root being its last
node. -/
def Obligations.CodesAreRootToLeafPaths : Prop :=
  (∀ (freq : Table Word) (b : Byte),
    (readAt freq b ≠ 0 → followPath (treeBuild freq).1 (treeBuild freq).2 (readAt (codeOf freq) b) =
      some (.leaf b (readAt freq b))) ∧
    (∀ path n, followPath (treeBuild freq).1 (treeBuild freq).2 path = some (.leaf b n) →
      readAt (codeOf freq) b = path) ∧
    (readAt freq b = 0 → readAt (codeOf freq) b = [])) ∧
  ∀ s : State, s.phase = .counting → nsym s.freq ≠ 0 →
    ∃ t, exec .build s = .next t ∧ ∀ b,
      (readAt t.freq b ≠ 0 → followPath t.tree (t.tree.length - 1) (readAt t.code b) =
        some (.leaf b (readAt t.freq b))) ∧
      (∀ path n, followPath t.tree (t.tree.length - 1) path = some (.leaf b n) → readAt t.code b = path) ∧
      (readAt t.freq b = 0 → readAt t.code b = [])

/-- 43_code_table_generator.md section 1: the counted byte values are exactly those with a code, and no code is a prefix
of another. -/
def Obligations.CodesArePrefixFree : Prop :=
  ∀ freq : Table Word,
    (∀ b, readAt (codeOf freq) b ≠ [] ↔ readAt freq b ≠ 0) ∧ PrefixFree freq (codeOf freq)

/-- 43_code_table_generator.md section 1, the Kraft sum, scaled by 2^255: it is 1 for N ≥ 2 and 1/2 for N = 1. -/
def Obligations.KraftSumOfCodes : Prop :=
  ∀ freq : Table Word,
    (2 ≤ nsym freq →
      sumBytes (fun b => if readAt freq b = 0 then 0 else 2 ^ (255 - codeLen (codeOf freq) b)) = 2 ^ 255) ∧
    (nsym freq = 1 →
      sumBytes (fun b => if readAt freq b = 0 then 0 else 2 ^ (255 - codeLen (codeOf freq) b)) = 2 ^ 254)

/-- 42_huffman_tree_builder.md section 2, the depth bound: every leaf's depth is at most N - 1, and where the counts sum
to at most 2^32 - 1, as `Inv` says of every run, a leaf at depth d needs a root count of at least F(d + 2), and d is at
most 45. -/
def Obligations.CodeLengthBounds : Prop :=
  ∀ (freq : Table Word) (b : Byte), 2 ≤ nsym freq → readAt freq b ≠ 0 →
    codeLen (codeOf freq) b ≤ nsym freq - 1 ∧
    (sumBytes (fun b => (readAt freq b).toNat) ≤ 2 ^ 32 - 1 →
      Nat.fib (codeLen (codeOf freq) b + 2) ≤ sumBytes (fun b => (readAt freq b).toNat) ∧
      codeLen (codeOf freq) b ≤ 45)

/-- R179: for N ≥ 2 the sum of count times code length is no larger than for any other prefix code over the same byte
values, where the counts sum to at most 2^32 - 1, as `Inv` says of every run (`Inv.counted`); for N = 1 the code has
length 1. -/
def Obligations.CodeIsOptimal : Prop :=
  ∀ freq : Table Word,
    (2 ≤ nsym freq → sumBytes (fun b => (readAt freq b).toNat) ≤ 2 ^ 32 - 1 →
      ∀ code : Table Bits, PrefixFree freq code →
        sumBytes (fun b => (readAt freq b).toNat * codeLen (codeOf freq) b) ≤
          sumBytes (fun b => (readAt freq b).toNat * codeLen code b)) ∧
    (nsym freq = 1 → ∀ b, readAt freq b ≠ 0 → codeLen (codeOf freq) b = 1)

/-! ### The header -/

/-- 44_header_serializer.md section 1: HEADER_LEN after BUILD is 2 + 2·NSYM + the sum of the code lengths, from 5 to
33409. -/
def Obligations.HeaderLengthAfterBuild : Prop :=
  ∀ s t : State, s.phase = .counting → exec .build s = .next t → t.phase = .packing →
    t.headerLen.toNat = 2 + 2 * nsym t.freq + sumBytes (codeLen t.code) ∧
    5 ≤ t.headerLen.toNat ∧ t.headerLen.toNat ≤ 33409

/-- 44_header_serializer.md section 3: the header BUILD emits, with any bytes after it, parses to the code table, the
padding and the header's length. -/
def Obligations.HeaderParsesBack : Prop :=
  ∀ s t : State, s.phase = .counting → exec .build s = .next t → t.phase = .packing →
    ∃ h, t.out = s.out ++ h ∧ h.length = t.headerLen.toNat ∧
      ∀ rest, parseHeader (h ++ rest) = some (t.code, t.padding.toNat, t.headerLen.toNat)

/-! ### Runs -/

/-- 41_frequency_counter.md: after START and one COUNT per byte of S, from any state, FREQ counts S, ORIG_SIZE is its
length, NSYM its number of distinct byte values, and the state does not depend on the order of S. -/
def Obligations.CountPassCountsInput : Prop :=
  ∀ (s : State) (S : List Byte), S.length < 2 ^ 32 →
    ∃ t, runCommands (.start :: S.map .count) s = .next t ∧ t.phase = .counting ∧
      (∀ b, (readAt t.freq b).toNat = S.count b) ∧ t.origSize.toNat = S.length ∧ nsym t.freq = S.toFinset.card ∧
      t.out = s.out ∧
      ∀ S' : List Byte, S'.Perm S → runCommands (.start :: S'.map .count) s = .next t

/-- 30_encoding.md section 5, 45_bit_packer.md section 4, 70_reset_and_hazards.md section 3: a run, from any state, whose
pass 1 presents a non-empty S and whose pass 2 presents S again in any order T, ends in DONE, and its output is the header
of S's code, HEADER_LEN bytes, then the payload of T, PAYLOAD_BYTES bytes, with no error. T = S is `ENCODE S`. -/
def Obligations.TwoPassRunEncodes : Prop :=
  ∀ (s : State) (S T : List Byte), S ≠ [] → S.length < 2 ^ 32 → T.Perm S →
    ∃ t, runCommands (twoPass S T) s = .next t ∧ t.phase = .done ∧ outputValid t = true ∧
      (∀ b, (readAt t.freq b).toNat = S.count b) ∧ t.code = codeOf t.freq ∧
      t.out = s.out ++ runOutput s t ∧
      runOutput s t = headerBytes t.code (nsym t.freq) t.padding.toNat ++ payload t.code t.padding.toNat T ∧
      (headerBytes t.code (nsym t.freq) t.padding.toNat).length = t.headerLen.toNat ∧
      (payload t.code t.padding.toNat T).length = t.payloadBytes.toNat ∧
      readRegister 0x008#12 t = 0

/-- 20_memory.md section 6, last paragraph: a pass 2 that is not a reordering of pass 1 is detected: the run ends in ERROR
with INPUT_MISMATCH, and its output is not valid. -/
def Obligations.MismatchedPassTwoIsDetected : Prop :=
  ∀ (s : State) (S T : List Byte), S ≠ [] → S.length < 2 ^ 32 → ¬ T.Perm S →
    ∃ t, runCommands (twoPass S T) s = .next t ∧ t.phase = .error ∧ t.errCode = .inputMismatch ∧
      t.errPhase = .packing ∧ outputValid t = false

/-- 30_encoding.md section 5: a run on the empty input, from any state, ends in ERROR with EMPTY_INPUT and emits
nothing. -/
def Obligations.EmptyInputRunFails : Prop :=
  ∀ s : State, ∃ t, runCommands (expandPseudo (.encode [])) s = .next t ∧ t.phase = .error ∧
    t.errCode = .emptyInput ∧ t.errPhase = .counting ∧ t.errCmd = 0x00000300#32 ∧ t.out = s.out
end

