-- ==== Sys2Proof/Laws/Tables.lean ====
section
/-! SUPPORT. Laws of the tables indexed by byte value, and of iteration and sums over the 256 byte values. -/

namespace Sys2Proof.Laws

open Sys2Proof.Machine

@[simp] theorem readAt_writeAt {α : Type} (t : Table α) (b c : Byte) (v : α) :
    readAt (writeAt t b v) c = if c = b then v else readAt t c := by
  simp only [readAt, writeAt, Vector.getElem_set, BitVec.toNat_inj, eq_comm]

@[simp] theorem readAt_fillTable {α : Type} (v : α) (b : Byte) : readAt (fillTable v) b = v := by
  simp [readAt, fillTable]

@[simp] theorem readAt_replicate {α : Type} (v : α) (b : Byte) : readAt (Vector.replicate 256 v) b = v :=
  readAt_fillTable v b

theorem table_ext {α : Type} {t u : Table α} (h : ∀ b, readAt t b = readAt u b) : t = u := by
  apply Vector.ext
  intro i hi
  have := h (BitVec.ofNat 8 i)
  simpa [readAt, Nat.mod_eq_of_lt hi] using this

theorem eq_fillTable {α : Type} {t : Table α} {v : α} (h : ∀ b, readAt t b = v) : t = fillTable v :=
  table_ext fun b => by simp [h]

@[simp] theorem mem_allBytes (b : Byte) : b ∈ allBytes := by
  simp only [allBytes, List.mem_map, List.mem_range]
  exact ⟨b.toNat, b.isLt, by simp⟩

@[simp] theorem length_allBytes : allBytes.length = 256 := by simp [allBytes]

theorem nodup_allBytes : allBytes.Nodup := by
  refine List.Nodup.map_on ?_ List.nodup_range
  intro x hx y hy h
  have := congrArg BitVec.toNat h
  simpa [Nat.mod_eq_of_lt (List.mem_range.1 hx), Nat.mod_eq_of_lt (List.mem_range.1 hy)] using this

theorem sumBytes_congr {f g : Byte → Nat} (h : ∀ b, f b = g b) : sumBytes f = sumBytes g :=
  congrArg sumBytes (funext h)

theorem sumBytes_eq_sum (f : Byte → Nat) : sumBytes f = ∑ b ∈ allBytes.toFinset, f b :=
  (List.sum_toFinset f nodup_allBytes).symm

theorem le_sumBytes (f : Byte → Nat) (b : Byte) : f b ≤ sumBytes f :=
  List.le_sum_of_mem (List.mem_map_of_mem (mem_allBytes b))

theorem sumBytes_mono {f g : Byte → Nat} (h : ∀ b, f b ≤ g b) : sumBytes f ≤ sumBytes g := by
  simpa [sumBytes_eq_sum] using Finset.sum_le_sum fun b _ => h b

theorem sumBytes_add (f g : Byte → Nat) : sumBytes (fun b => f b + g b) = sumBytes f + sumBytes g := by
  simp [sumBytes_eq_sum, Finset.sum_add_distrib]

theorem sumBytes_mul_right (f : Byte → Nat) (k : Nat) : sumBytes (fun b => f b * k) = sumBytes f * k := by
  simp [sumBytes_eq_sum, Finset.sum_mul]

@[simp] theorem sumBytes_zero : sumBytes (fun _ => 0) = 0 := by
  rw [sumBytes_eq_sum, Finset.sum_const_zero]

theorem sumBytes_eq_zero {f : Byte → Nat} (h : sumBytes f = 0) (b : Byte) : f b = 0 :=
  Nat.le_zero.1 (h ▸ le_sumBytes f b)

/-- A sum in which only the term of d differs. -/
theorem sumBytes_change {f g : Byte → Nat} (d : Byte) (h : ∀ b, b ≠ d → f b = g b) :
    sumBytes f + g d = sumBytes g + f d := by
  have hd : d ∈ allBytes.toFinset := by simp
  have hf := Finset.add_sum_erase _ f hd
  have hg := Finset.add_sum_erase _ g hd
  have he : ∑ b ∈ allBytes.toFinset.erase d, f b = ∑ b ∈ allBytes.toFinset.erase d, g b :=
    Finset.sum_congr rfl fun b hb => h b (Finset.ne_of_mem_erase hb)
  rw [sumBytes_eq_sum, sumBytes_eq_sum]
  omega

/-- NSYM counts the byte values with a nonzero count. -/
theorem nsym_eq_card (freq : Table Word) :
    nsym freq = (allBytes.toFinset.filter fun b => readAt freq b ≠ 0).card := by
  have : (allBytes.toFinset.filter fun b => readAt freq b ≠ 0) =
      (allBytes.filter fun b => readAt freq b != 0).toFinset := by
    ext b; simp
  rw [this, List.toFinset_card_of_nodup (nodup_allBytes.filter _)]
  rfl

theorem nsym_le (freq : Table Word) : nsym freq ≤ 256 :=
  (List.length_filter_le _ _).trans_eq length_allBytes

theorem nsym_eq_zero_iff (freq : Table Word) : nsym freq = 0 ↔ ∀ b, readAt freq b = 0 := by
  rw [nsym, List.length_eq_zero_iff, List.filter_eq_nil_iff]
  simp

end Sys2Proof.Laws
end

