-- ==== Sys2Proof/Laws/TreeBuilder.lean ====
section
/-! SUPPORT. What the Huffman Tree Builder does (spec/42_huffman_tree_builder.md R170 to R174), in terms of inductive
trees: TREE represents, at the root's id, a tree made from the leaves by greedy merges. -/

namespace Sys2Proof.Laws

open Sys2Proof.Machine

/-- A binary code tree as an inductive value; TREE stores one by node ids. -/
inductive CodeTree where
  | leaf (sym : Byte) (count : Nat)
  | node (left right : CodeTree)
deriving DecidableEq, Repr

/-- The sum of the leaves' counts. -/
def CodeTree.weight : CodeTree → Nat
  | .leaf _ n => n
  | .node l r => l.weight + r.weight

/-- The count a node of TREE holds for a tree: its weight, in COUNT_W bits (R5). -/
def CodeTree.count (T : CodeTree) : Word := BitVec.ofNat 32 T.weight

/-- The leaves, left to right. -/
def CodeTree.leafList : CodeTree → List (Byte × Nat)
  | .leaf b n => [(b, n)]
  | .node l r => l.leafList ++ r.leafList

/-- Each leaf's byte value with the path to it after a prefix (R200). -/
def CodeTree.paths : CodeTree → Bits → List (Byte × Bits)
  | .leaf b _, pre => [(b, pre)]
  | .node l r, pre => l.paths (pre ++ [false]) ++ r.paths (pre ++ [true])

/-- Node i of a node store holds the tree T, children at smaller ids. -/
def Represents (tree : List Node) : Nat → CodeTree → Prop
  | i, .leaf b n => tree[i]? = some (.leaf b (BitVec.ofNat 32 n))
  | i, .node l r => ∃ x y, tree[i]? = some (.internal (CodeTree.node l r).count x (some y)) ∧ x < i ∧ y < i ∧
      Represents tree x l ∧ Represents tree y r

theorem Represents.append {tree : List Node} (more : List Node) {i : Nat} {T : CodeTree}
    (h : Represents tree i T) : Represents (tree ++ more) i T := by
  have keep : ∀ {j n}, tree[j]? = some n → (tree ++ more)[j]? = some n := fun {j n} hj => by
    rw [List.getElem?_append_left (List.getElem?_eq_some_iff.1 hj).1, hj]
  induction T generalizing i with
  | leaf b n => exact keep h
  | node l r ihl ihr =>
    obtain ⟨x, y, hi, hx, hy, hl, hr⟩ := h
    exact ⟨x, y, keep hi, hx, hy, ihl hl, ihr hr⟩

/-- R200: walking a represented tree lists its paths. -/
theorem Represents.walk {tree : List Node} {i : Nat} {T : CodeTree} (h : Represents tree i T) {fuel : Nat}
    (hf : i < fuel) (pre : Bits) : walk tree fuel i pre = T.paths pre := by
  induction T generalizing i fuel pre with
  | leaf b n =>
    obtain ⟨fuel, rfl⟩ := Nat.exists_eq_succ_of_ne_zero (Nat.ne_of_gt (Nat.zero_lt_of_lt hf))
    have h : tree[i]? = some (.leaf b (BitVec.ofNat 32 n)) := h
    simp [Machine.walk, h, CodeTree.paths]
  | node l r ihl ihr =>
    obtain ⟨fuel, rfl⟩ := Nat.exists_eq_succ_of_ne_zero (Nat.ne_of_gt (Nat.zero_lt_of_lt hf))
    obtain ⟨x, y, hi, hx, hy, hl, hr⟩ := h
    simp only [Machine.walk, hi, CodeTree.paths]
    rw [ihl hl (by omega), ihr hr (by omega)]

/-! ### The queue -/

theorem Key.less_iff (a b : Key) : a.less b = true ↔
    a.count.toNat < b.count.toNat ∨ (a.count.toNat = b.count.toNat ∧ a.id < b.id) := by
  simp [Key.less, BitVec.lt_def, BitVec.toNat_eq]

/-- Extraction only reorders the queue. -/
theorem extractMin_perm (k : Key) (q : List Key) : ((extractMin k q).1 :: (extractMin k q).2).Perm (k :: q) := by
  induction q generalizing k with
  | nil => exact .refl _
  | cons k' q ih =>
    simp only [extractMin]
    split
    · exact (List.Perm.swap ..).trans ((ih k').cons k)
    · exact (List.Perm.swap ..).trans (((ih k).cons k').trans (List.Perm.swap ..))

/-- R172: no key left in the queue is smaller than the extracted one. -/
theorem extractMin_least (k : Key) (q : List Key) : ∀ j ∈ k :: q, j.less (extractMin k q).1 = false := by
  induction q generalizing k with
  | nil => simp [extractMin, Key.less]
  | cons k' q ih =>
    have trans : ∀ {a b c : Key}, a.less b = false → b.less c = false → a.less c = false := by
      intro a b c hab hbc
      rw [← Bool.not_eq_true, Key.less_iff] at *
      omega
    have total : ∀ {a b : Key}, a.less b = true → b.less a = false := by
      intro a b h
      rw [← Bool.not_eq_true, Key.less_iff]
      rw [Key.less_iff] at h
      omega
    simp only [extractMin]
    split
    · rename_i h
      intro j hj
      rcases List.mem_cons.1 hj with rfl | hj
      · exact trans (total h) (ih k' k' (by simp))
      · exact ih k' j hj
    · rename_i h
      intro j hj
      rcases List.mem_cons.1 hj with rfl | hj
      · exact ih j j (by simp)
      · rcases List.mem_cons.1 hj with rfl | hj
        · exact trans (by simpa using h) (ih k k (by simp))
        · exact ih k j (by simp [hj])

theorem length_extractMin (k : Key) (q : List Key) : (extractMin k q).2.length = q.length := by
  simpa using (extractMin_perm k q).length_eq

/-! ### Greedy merging -/

/-- The trees a greedy merge of a collection of trees can end in: two trees that `w` finds least are merged, again and
again (§4.2 of the source, R173). -/
inductive Greedy (w : CodeTree → Nat) : List CodeTree → CodeTree → Prop where
  | done (T : CodeTree) : Greedy w [T] T
  | merge {ts rest : List CodeTree} {x y T : CodeTree} (split : ts.Perm (x :: y :: rest))
      (least : w x ≤ w y ∧ ∀ z ∈ rest, w y ≤ w z) (after : Greedy w (.node x y :: rest) T) : Greedy w ts T

/-- R173: greedy merging by the counts TREE's nodes hold. -/
abbrev MergedByCount (ts : List CodeTree) (T : CodeTree) : Prop := Greedy (fun T => T.count.toNat) ts T

/-- R177: where the counts sum to less than 2^32 the nodes' counts are exact, and merging by them is merging by weight. -/
theorem Greedy.exact {ts : List CodeTree} {T : CodeTree} (h : MergedByCount ts T)
    (hs : (ts.map CodeTree.weight).sum < 2 ^ 32) : Greedy CodeTree.weight ts T := by
  induction h with
  | done T => exact .done T
  | @merge ts rest x y T split least after ih =>
    rw [(split.map _).sum_eq] at hs
    simp only [List.map_cons, List.sum_cons] at hs
    have exact {z : CodeTree} (hz : z.weight < 2 ^ 32) : z.count.toNat = z.weight := by
      simpa [CodeTree.count] using hz
    have hrest : ∀ z ∈ rest, z.weight < 2 ^ 32 := fun z hz => by
      have := List.le_sum_of_mem (List.mem_map_of_mem (f := CodeTree.weight) hz)
      omega
    simp only [exact (by omega : x.weight < 2 ^ 32), exact (by omega : y.weight < 2 ^ 32)] at least
    refine .merge split ⟨least.1, fun z hz => ?_⟩ (ih ?_)
    · exact exact (hrest z hz) ▸ least.2 z hz
    · simp only [List.map_cons, List.sum_cons, CodeTree.weight]
      omega

/-- A queue key stands for a tree of the node store. -/
def KeyOf (tree : List Node) (k : Key) (T : CodeTree) : Prop :=
  Represents tree k.id T ∧ k.count = T.count ∧ k.id < tree.length

theorem KeyOf.append {tree : List Node} (more : List Node) {k : Key} {T : CodeTree} (h : KeyOf tree k T) :
    KeyOf (tree ++ more) k T :=
  ⟨h.1.append more, h.2.1, by have := h.2.2; simp; omega⟩

/-- R173: one pass of the loop, on a queue of at least two keys that stand for the trees `ts`. -/
theorem mergeStep_spec {q : List Key} {tree : List Node} {ts : List CodeTree}
    (h : List.Forall₂ (KeyOf tree) q ts) (hq : 2 ≤ q.length) :
    ∃ q' node x y rest, mergeStep q tree = some (q', tree ++ [node]) ∧ q'.length + 1 = q.length ∧
      ts.Perm (x :: y :: rest) ∧ x.count.toNat ≤ y.count.toNat ∧
      (∀ z ∈ rest, y.count.toNat ≤ z.count.toNat) ∧
      List.Forall₂ (KeyOf (tree ++ [node])) q' (.node x y :: rest) ∧ q'.head?.map Key.id = some tree.length := by
  obtain ⟨k, q, rfl⟩ := List.exists_cons_of_length_pos (by omega : 0 < q.length)
  have p₁ := extractMin_perm k q
  have l₁ := extractMin_least k q
  have n₁ := length_extractMin k q
  generalize hx : (extractMin k q).1 = kx at *
  generalize hq₁ : (extractMin k q).2 = q₁ at *
  obtain ⟨k₁, q₁, rfl⟩ := List.exists_cons_of_length_pos (by simp at hq; omega : 0 < q₁.length)
  have p₂ := extractMin_perm k₁ q₁
  have l₂ := extractMin_least k₁ q₁
  have n₂ := length_extractMin k₁ q₁
  have hstep : mergeStep (k :: q) tree = some (⟨(mergeNode kx (extractMin k₁ q₁).1).count, tree.length⟩ ::
      (extractMin k₁ q₁).2, tree ++ [mergeNode kx (extractMin k₁ q₁).1]) := by
    simp only [mergeStep, hx, hq₁]
  generalize (extractMin k₁ q₁).1 = ky at *
  generalize (extractMin k₁ q₁).2 = q₂ at *
  have pall : (kx :: ky :: q₂).Perm (k :: q) := (p₂.cons kx).trans p₁
  obtain ⟨ts', hts', pts⟩ := List.perm_comp_forall₂ pall h
  obtain ⟨x, _, hxk, hts'', rfl⟩ := List.forall₂_cons_left_iff.1 hts'
  obtain ⟨y, rest, hyk, hrest, rfl⟩ := List.forall₂_cons_left_iff.1 hts''
  have count_le : ∀ {a b : Key}, b.less a = false → a.count.toNat ≤ b.count.toNat := by
    intro a b hab
    rw [← Bool.not_eq_true, Key.less_iff] at hab
    omega
  refine ⟨_, _, x, y, rest, hstep, by simp at *; omega, pts.symm, ?_, ?_, ?_, rfl⟩
  · rw [← hxk.2.1, ← hyk.2.1]
    exact count_le (l₁ ky (pall.subset (by simp)))
  · intro z hz
    obtain ⟨kz, hkz, hz'⟩ : ∃ kz ∈ q₂, KeyOf tree kz z := by
      obtain ⟨hlen, hget⟩ := List.forall₂_iff_get.1 hrest
      obtain ⟨i, hi, rfl⟩ := List.getElem_of_mem hz
      exact ⟨q₂[i]'(hlen ▸ hi), List.getElem_mem _, hget i (hlen ▸ hi) hi⟩
    rw [← hyk.2.1, ← hz'.2.1]
    exact count_le (l₂ kz (p₂.subset (by simp [hkz])))
  · have hcount : (mergeNode kx ky).count = (CodeTree.node x y).count := by
      simp [mergeNode, Node.count, CodeTree.count, CodeTree.weight, hxk.2.1, hyk.2.1, BitVec.ofNat_add]
    refine .cons ⟨⟨kx.id, ky.id, ?_, hxk.2.2, hyk.2.2, hxk.1.append _, hyk.1.append _⟩, ?_, by simp⟩
      (hrest.imp fun _ _ h => h.append _)
    · simp [mergeNode, ← hcount, Node.count]
    · exact hcount

/-- R174: the loop ends with one key, the last node made, after one pass for each key but one. -/
theorem mergeLoop_spec {fuel : Nat} {q : List Key} {tree : List Node} {ts : List CodeTree}
    (h : List.Forall₂ (KeyOf tree) q ts) (hpos : 1 ≤ q.length) (hfuel : q.length ≤ fuel + 1) :
    ∃ k T more, mergeLoop fuel q tree = ([k], tree ++ more) ∧ KeyOf (tree ++ more) k T ∧ MergedByCount ts T ∧
      more.length + 1 = q.length ∧ (∀ n ∈ more, ∃ c x y, n = .internal c x (some y)) ∧
      (2 ≤ q.length → k.id + 1 = (tree ++ more).length) := by
  induction fuel generalizing q tree ts with
  | zero =>
    obtain ⟨k, rfl⟩ := List.length_eq_one_iff.1 (by omega : q.length = 1)
    obtain ⟨T, _, hT, hnil, rfl⟩ := List.forall₂_cons_left_iff.1 h
    obtain rfl := List.forall₂_nil_left_iff.1 hnil
    exact ⟨k, T, [], by simp [mergeLoop], by simpa using hT, .done T, rfl, by simp, by simp⟩
  | succ fuel ih =>
    by_cases h1 : q.length = 1
    · obtain ⟨k, rfl⟩ := List.length_eq_one_iff.1 h1
      obtain ⟨T, _, hT, hnil, rfl⟩ := List.forall₂_cons_left_iff.1 h
      obtain rfl := List.forall₂_nil_left_iff.1 hnil
      exact ⟨k, T, [], by simp [mergeLoop, mergeStep, extractMin], by simpa using hT, .done T, rfl, by simp, by simp⟩
    · obtain ⟨q', node, x, y, rest, hstep, hlen, hperm, hxy, hrest, hq', hhead⟩ := mergeStep_spec h (by omega)
      obtain ⟨k, T, more, hloop, hk, hg, hmore, hint, hroot⟩ := ih hq' (by omega) (by omega)
      have hnode : ∃ c x y, node = .internal c x (some y) := by
        match q, hstep with
        | k :: q, hstep =>
          simp only [mergeStep] at hstep
          split at hstep
          · cases hstep
          · simp only [Option.some.injEq, Prod.mk.injEq, List.append_cancel_left_eq, List.cons.injEq, and_true] at hstep
            exact ⟨_, _, _, hstep.2.symm⟩
      refine ⟨k, T, node :: more, ?_, ?_, .merge hperm ⟨hxy, hrest⟩ hg, by simp; omega, ?_, fun _ => ?_⟩
      · simp [mergeLoop, hstep, hloop]
      · simpa using hk
      · simpa using ⟨hnode, hint⟩
      · by_cases h2 : 2 ≤ q'.length
        · simpa using hroot h2
        · obtain ⟨k', rfl⟩ := List.length_eq_one_iff.1 (by omega : q'.length = 1)
          obtain rfl : more = [] := by simpa using hmore
          have : k = k' := by
            cases fuel <;> simp [mergeLoop, mergeStep, extractMin] at hloop <;> exact hloop.symm
          subst this
          simp at hhead
          simp [hhead]

/-! ### TreeBuild -/

/-- The leaf trees of the counted byte values, in ascending order (R171). -/
def leafTrees (freq : Table Word) : List CodeTree :=
  allBytes.filterMap fun b => if readAt freq b = 0 then none else some (.leaf b (readAt freq b).toNat)

theorem filterMap_skip {α β : Type} (p : α → Bool) (f : α → β) (l : List α) :
    (l.filterMap fun a => if p a then none else some (f a)) = (l.filter fun a => !p a).map f := by
  induction l with
  | nil => rfl
  | cons a l ih => cases h : p a <;> simp [h, ih]

/-- The counted byte values with their counts, in ascending order: the symbols of the code. -/
def symbols (freq : Table Word) : List (Byte × Nat) :=
  (allBytes.filter fun b => readAt freq b != 0).map fun b => (b, (readAt freq b).toNat)

theorem leaves_eq_map (freq : Table Word) : leaves freq = (symbols freq).map fun p => Node.leaf p.1 (BitVec.ofNat 32 p.2) := by
  have := filterMap_skip (fun b => readAt freq b == 0) (fun b => Node.leaf b (readAt freq b)) allBytes
  simpa only [leaves, symbols, List.map_map, beq_iff_eq, bne, Function.comp_def, BitVec.ofNat_toNat,
    BitVec.setWidth_eq] using this

theorem leafTrees_eq_map (freq : Table Word) :
    leafTrees freq = (symbols freq).map fun p => CodeTree.leaf p.1 p.2 := by
  have := filterMap_skip (fun b => readAt freq b == 0) (fun b => CodeTree.leaf b (readAt freq b).toNat) allBytes
  simpa only [leafTrees, symbols, List.map_map, beq_iff_eq, bne, Function.comp_def] using this

theorem length_leaves (freq : Table Word) : (leaves freq).length = nsym freq := by
  simp [leaves_eq_map, symbols, nsym]

theorem leafKeys_spec (bs : List (Byte × Nat)) :
    List.Forall₂ (KeyOf (bs.map fun p => Node.leaf p.1 (BitVec.ofNat 32 p.2)))
      (leafKeys (bs.map fun p => Node.leaf p.1 (BitVec.ofNat 32 p.2)))
      (bs.map fun p => CodeTree.leaf p.1 p.2) := by
  refine List.forall₂_iff_get.2 ⟨by simp [leafKeys], fun i h₁ h₂ => ?_⟩
  have hi : i < bs.length := by simpa using h₂
  simp only [leafKeys, List.get_eq_getElem, List.getElem_map, List.getElem_zipIdx]
  refine ⟨?_, rfl, by simpa using hi⟩
  simp [Represents, hi]

/-- R170, R174: with at least two byte values, TREE is the leaves followed by one internal node for each byte value but
one; the root is its last node; and it holds a tree greedily merged from the leaves. -/
theorem treeBuild_spec {freq : Table Word} (h : 2 ≤ nsym freq) :
    ∃ T more, treeBuild freq = (leaves freq ++ more, 2 * nsym freq - 2) ∧
      Represents (leaves freq ++ more) (2 * nsym freq - 2) T ∧ MergedByCount (leafTrees freq) T ∧
      more.length = nsym freq - 1 ∧ ∀ n ∈ more, ∃ c x y, n = .internal c x (some y) := by
  have hlen := length_leaves freq
  have hkeys := leafKeys_spec (symbols freq)
  rw [← leaves_eq_map, ← leafTrees_eq_map] at hkeys
  have hkl : (leafKeys (leaves freq)).length = nsym freq := by simp [leafKeys, hlen]
  obtain ⟨k, T, more, hloop, hk, hg, hmore, hint, hroot⟩ :=
    mergeLoop_spec (fuel := (leaves freq).length) hkeys (by omega) (by omega)
  have hid : k.id = 2 * nsym freq - 2 := by
    have := hroot (by omega)
    simp only [List.length_append, hlen] at this
    omega
  have hbuild : treeBuild freq = (leaves freq ++ more, 2 * nsym freq - 2) := by
    unfold treeBuild
    dsimp only
    split
    · rename_i l hl'
      rw [hl'] at hlen
      simp at hlen
      omega
    · simp [hloop, hid]
  exact ⟨T, more, hbuild, hid ▸ hk.1, hg, by omega, hint⟩

/-- R175: with one byte value, TREE is its leaf and the synthetic root over it. -/
theorem treeBuild_single {freq : Table Word} {b : Byte} (hb : readAt freq b ≠ 0)
    (honly : ∀ c, c ≠ b → readAt freq c = 0) :
    treeBuild freq = ([.leaf b (readAt freq b), .internal (readAt freq b) 0 none], 1) := by
  have hl : leaves freq = [.leaf b (readAt freq b)] := by
    have hf : (allBytes.filter fun c => readAt freq c != 0) = [b] := by
      have hperm : (allBytes.filter fun c => readAt freq c != 0).Perm [b] := by
        rw [List.perm_ext_iff_of_nodup (nodup_allBytes.filter _) (by simp)]
        intro c
        simp only [List.mem_filter, mem_allBytes, true_and, bne_iff_ne, ne_eq, List.mem_singleton]
        exact ⟨fun h => by_contra fun hc => h (honly c hc), fun h => h ▸ hb⟩
      exact List.perm_singleton.1 hperm
    rw [leaves_eq_map, symbols, hf]
    simp
  simp [treeBuild, hl, Node.count]

/-- A greedy merge keeps the leaves. -/
theorem Greedy.leafList {ts : List CodeTree} {w : CodeTree → Nat} {T : CodeTree} (h : Greedy w ts T) :
    T.leafList.Perm (ts.flatMap CodeTree.leafList) := by
  induction h with
  | done T => simp
  | merge split _ _ ih =>
    refine ih.trans ?_
    have := split.flatMap_right CodeTree.leafList
    simpa [CodeTree.leafList] using this.symm

/-- The leaves of the tree TreeBuild makes are the counted byte values with their counts. -/
theorem flatMap_leafList_leafTrees (freq : Table Word) :
    (leafTrees freq).flatMap CodeTree.leafList = symbols freq := by
  simp [leafTrees_eq_map, List.flatMap_map, CodeTree.leafList]

end Sys2Proof.Laws
end

