-- ==== Sys2Proof/Laws/CodeTable.lean ====
section
/-! SUPPORT. What the Code Table Generator does (spec/43_code_table_generator.md R200), on the tree TreeBuild makes. -/

namespace Sys2Proof.Laws

open Sys2Proof.Machine

/-- The paths of a tree belong to its leaves, in the same order. -/
theorem CodeTree.map_fst_paths (T : CodeTree) (pre : Bits) : (T.paths pre).map Prod.fst = T.leafList.map Prod.fst := by
  induction T generalizing pre with
  | leaf b n => rfl
  | node l r ihl ihr => simp [CodeTree.paths, CodeTree.leafList, ihl, ihr]

/-- Writing a list of entries for different byte values: each entry is read back, and nothing else changed. -/
theorem readAt_foldl_writeAt {ps : List (Byte × Bits)} (hnd : (ps.map Prod.fst).Nodup) (t : Table Bits) (b : Byte) :
    (∀ p, (b, p) ∈ ps → readAt (ps.foldl (fun code p => writeAt code p.1 p.2) t) b = p) ∧
    (b ∉ ps.map Prod.fst → readAt (ps.foldl (fun code p => writeAt code p.1 p.2) t) b = readAt t b) := by
  induction ps generalizing t with
  | nil => simp
  | cons q ps ih =>
    obtain ⟨hq, hnd⟩ := List.nodup_cons.1 hnd
    obtain ⟨hmem, hnot⟩ := ih hnd (writeAt t q.1 q.2)
    rw [List.foldl_cons]
    refine ⟨fun p hp => ?_, fun hb => ?_⟩
    · rcases List.mem_cons.1 hp with rfl | hp
      · simpa using hnot hq
      · exact hmem p hp
    · simp only [List.map_cons, List.mem_cons, not_or] at hb
      simpa [hb.1] using hnot hb.2

theorem map_fst_symbols (freq : Table Word) :
    (symbols freq).map Prod.fst = allBytes.filter fun b => readAt freq b != 0 := by
  simp [symbols, Function.comp_def]

theorem mem_map_fst_symbols {freq : Table Word} {b : Byte} : b ∈ (symbols freq).map Prod.fst ↔ readAt freq b ≠ 0 := by
  rw [map_fst_symbols]
  simp

/-- R200 on TreeBuild's tree, with at least two byte values: TREE holds a tree greedily merged from the leaves whose paths
are the codes of the counted byte values, and the other byte values have no code. -/
theorem codeOf_spec {freq : Table Word} (h : 2 ≤ nsym freq) :
    ∃ T : CodeTree, MergedByCount (leafTrees freq) T ∧ T.leafList.Perm (symbols freq) ∧
      (∀ b p, (b, p) ∈ T.paths [] → readAt (codeOf freq) b = p) ∧
      (∀ b, readAt freq b ≠ 0 → (b, readAt (codeOf freq) b) ∈ T.paths []) ∧
      (∀ b, readAt freq b = 0 → readAt (codeOf freq) b = []) ∧
      Represents (treeBuild freq).1 (treeBuild freq).2 T := by
  obtain ⟨T, more, hbuild, hrep, hg, hmore, -⟩ := treeBuild_spec h
  have hleaf : T.leafList.Perm (symbols freq) := flatMap_leafList_leafTrees freq ▸ hg.leafList
  have hkeys : ((T.paths []).map Prod.fst).Perm ((symbols freq).map Prod.fst) := by
    rw [T.map_fst_paths]
    exact hleaf.map _
  have hnd : ((T.paths []).map Prod.fst).Nodup := by
    rw [hkeys.nodup_iff, map_fst_symbols]
    exact nodup_allBytes.filter _
  have hcode : codeOf freq = (T.paths []).foldl (fun code p => writeAt code p.1 p.2) (fillTable []) := by
    rw [codeOf, hbuild, codeGen, hrep.walk]
    simp [length_leaves, hmore]
    omega
  refine ⟨T, hg, hleaf, fun b p hp => ?_, fun b hb => ?_, fun b hb => ?_, hbuild ▸ hrep⟩
  · rw [hcode]
    exact (readAt_foldl_writeAt hnd _ b).1 p hp
  · have hb' : b ∈ (T.paths []).map Prod.fst := hkeys.mem_iff.2 (mem_map_fst_symbols.2 hb)
    obtain ⟨⟨b', p⟩, hp, rfl⟩ := List.mem_map.1 hb'
    rw [hcode, (readAt_foldl_writeAt hnd _ b').1 p hp]
    exact hp
  · rw [hcode, (readAt_foldl_writeAt hnd _ b).2]
    · simp
    · rw [hkeys.mem_iff, mem_map_fst_symbols]
      exact fun h => h hb

/-- R175, R200: with one byte value its code is "0". -/
theorem codeOf_single {freq : Table Word} {b : Byte} (hb : readAt freq b ≠ 0)
    (honly : ∀ c, c ≠ b → readAt freq c = 0) : codeOf freq = writeAt (fillTable []) b [false] := by
  simp [codeOf, treeBuild_single hb honly, codeGen, walk]

end Sys2Proof.Laws
end

