-- ==== Sys2Proof/Laws/CodeTree.lean ====
section
/-! SUPPORT. Facts of code trees: their paths (spec/43_code_table_generator.md R200), their weights, and what greedy
merging gives (spec/42_huffman_tree_builder.md R173). -/

namespace Sys2Proof.Laws

open Sys2Proof.Machine

theorem CodeTree.length_leafList_pos (T : CodeTree) : 1 ≤ T.leafList.length := by
  induction T with
  | leaf b n => simp [CodeTree.leafList]
  | node l r ihl ihr => simp only [CodeTree.leafList, List.length_append]; omega

/-! ### Paths -/

variable {b c : Byte} {p q pre : Bits}

/-- Every path continues the prefix the walk starts with. -/
theorem CodeTree.prefix_of_mem_paths {T : CodeTree} (h : (b, p) ∈ T.paths pre) : pre <+: p := by
  induction T generalizing pre with
  | leaf c n => simp [CodeTree.paths] at h; simp [h.2]
  | node l r ihl ihr =>
    simp only [CodeTree.paths, List.mem_append] at h
    rcases h with h | h
    · exact (List.prefix_append _ _).trans (ihl h)
    · exact (List.prefix_append _ _).trans (ihr h)

/-- Following bits down a stored tree reaches a leaf exactly when they are the path the walk gives that leaf. -/
theorem Represents.followPath_leaf {tree : List Node} {i : Nat} {n : Word} {T : CodeTree} (h : Represents tree i T) :
    (followPath tree i p = some (.leaf b n) → ∃ k, n = BitVec.ofNat 32 k ∧ (b, k) ∈ T.leafList) ∧
    ((∃ m, followPath tree i p = some (.leaf b m)) ↔ (b, pre ++ p) ∈ T.paths pre) := by
  induction T generalizing i p pre with
  | leaf c m =>
    have h : tree[i]? = some (.leaf c (BitVec.ofNat 32 m)) := h
    cases p with
    | nil => simp +contextual [followPath, h, CodeTree.leafList, CodeTree.paths, eq_comm]
    | cons x p => simp [followPath, h, CodeTree.paths]
  | node l r ihl ihr =>
    obtain ⟨x, y, hi, -, -, hl, hr⟩ := h
    have apart : ∀ {T : CodeTree} {x y : Bool} {q : Bits}, (b, pre ++ [x] ++ q) ∈ T.paths (pre ++ [y]) → x = y :=
      fun hm => by
        obtain ⟨z, hz⟩ := CodeTree.prefix_of_mem_paths hm
        simp [List.append_assoc] at hz
        exact hz.1.symm
    cases p with
    | nil =>
      refine ⟨by simp [followPath, hi], ?_⟩
      simp only [followPath, hi, CodeTree.paths, List.mem_append]
      constructor
      · simp
      · rintro (hm | hm) <;> simpa using (CodeTree.prefix_of_mem_paths hm).length_le
    | cons bit p =>
      simp only [CodeTree.leafList, CodeTree.paths, List.mem_append]
      rw [show pre ++ bit :: p = pre ++ [bit] ++ p by simp]
      cases bit
      · have hno : (b, pre ++ [false] ++ p) ∉ r.paths (pre ++ [true]) :=
          fun hm => Bool.noConfusion (apart hm)
        simp only [followPath, hi, hno, or_false]
        exact ⟨fun hf => ((ihl (pre := pre) hl).1 hf).imp fun _ h => ⟨h.1, .inl h.2⟩, (ihl hl).2⟩
      · have hno : (b, pre ++ [true] ++ p) ∉ l.paths (pre ++ [false]) :=
          fun hm => Bool.noConfusion (apart hm)
        simp only [followPath, hi, hno, false_or]
        exact ⟨fun hf => ((ihr (pre := pre) hr).1 hf).imp fun _ h => ⟨h.1, .inr h.2⟩, (ihr hr).2⟩

/-- Two paths that part, one left and one right, are no prefixes of each other. -/
theorem not_prefix_of_parting (hp : pre ++ [false] <+: p) (hq : pre ++ [true] <+: q) : ¬ p <+: q ∧ ¬ q <+: p := by
  obtain ⟨x, rfl⟩ := hp
  obtain ⟨y, rfl⟩ := hq
  constructor <;> intro h <;> simp [List.append_assoc] at h

/-- No path of a tree with different symbols is a prefix of another symbol's path. -/
theorem CodeTree.not_prefix_of_mem_paths {T : CodeTree} (hnd : (T.leafList.map Prod.fst).Nodup)
    (hp : (b, p) ∈ T.paths pre) (hq : (c, q) ∈ T.paths pre) (hne : b ≠ c) : ¬ p <+: q := by
  induction T generalizing pre with
  | leaf d n =>
    simp [CodeTree.paths] at hp hq
    exact absurd (hp.1.trans hq.1.symm) hne
  | node l r ihl ihr =>
    simp only [CodeTree.leafList, List.map_append, List.nodup_append] at hnd
    simp only [CodeTree.paths, List.mem_append] at hp hq
    rcases hp with hp | hp <;> rcases hq with hq | hq
    · exact ihl hnd.1 hp hq
    · exact (not_prefix_of_parting (prefix_of_mem_paths hp) (prefix_of_mem_paths hq)).1
    · exact (not_prefix_of_parting (prefix_of_mem_paths hq) (prefix_of_mem_paths hp)).2
    · exact ihr hnd.2.1 hp hq

/-- A path is shorter than the tree has leaves. -/
theorem CodeTree.length_of_mem_paths {T : CodeTree} (h : (b, p) ∈ T.paths pre) :
    p.length + 1 ≤ pre.length + T.leafList.length := by
  induction T generalizing pre with
  | leaf c n => simp [CodeTree.paths] at h; simp [h.2, CodeTree.leafList]
  | node l r ihl ihr =>
    have := l.length_leafList_pos
    have := r.length_leafList_pos
    simp only [CodeTree.paths, List.mem_append] at h
    simp only [CodeTree.leafList, List.length_append]
    rcases h with h | h
    · have := ihl h; simp at this; omega
    · have := ihr h; simp at this; omega

/-- A tree has as many paths as leaves, so it has one. -/
theorem CodeTree.exists_mem_paths (T : CodeTree) (pre : Bits) : ∃ e, e ∈ T.paths pre := by
  have := congrArg List.length (T.map_fst_paths pre)
  simp only [List.length_map] at this
  exact List.exists_mem_of_length_pos (this ▸ T.length_leafList_pos)

/-- The Kraft sum of a tree's paths, scaled by 2^D. -/
theorem CodeTree.kraft_paths (T : CodeTree) {D : Nat} (h : ∀ e ∈ T.paths pre, e.2.length ≤ D) :
    ((T.paths pre).map fun e => 2 ^ (D - e.2.length)).sum = 2 ^ (D - pre.length) := by
  induction T generalizing pre with
  | leaf b n => simp [CodeTree.paths]
  | node l r ihl ihr =>
    simp only [CodeTree.paths, List.mem_append] at h
    have hl := ihl (pre := pre ++ [false]) fun e he => h e (.inl he)
    have hr := ihr (pre := pre ++ [true]) fun e he => h e (.inr he)
    have hD : pre.length + 1 ≤ D := by
      obtain ⟨e, he⟩ := l.exists_mem_paths (pre ++ [false])
      have h₁ := h e (.inl he)
      have h₂ := (prefix_of_mem_paths he).length_le
      simp at h₂
      omega
    simp only [CodeTree.paths, List.map_append, List.sum_append, hl, hr, List.length_append, List.length_singleton]
    rw [show D - pre.length = D - (pre.length + 1) + 1 by omega, Nat.pow_succ]
    omega

/-- The paths' total length is at most that of the most unbalanced tree with as many leaves. -/
theorem CodeTree.sum_length_paths_le (T : CodeTree) (pre : Bits) :
    2 * ((T.paths pre).map fun e => e.2.length).sum + 2 ≤
      2 * T.leafList.length * pre.length + T.leafList.length * (T.leafList.length + 1) := by
  induction T generalizing pre with
  | leaf b n => simp [CodeTree.paths, CodeTree.leafList]
  | node l r ihl ihr =>
    have hl := ihl (pre ++ [false])
    have hr := ihr (pre ++ [true])
    have pl := l.length_leafList_pos
    have pr := r.length_leafList_pos
    simp only [CodeTree.paths, CodeTree.leafList, List.map_append, List.sum_append, List.length_append,
      List.length_singleton] at *
    generalize l.leafList.length = m at *
    generalize r.leafList.length = n at *
    obtain ⟨m, rfl⟩ := Nat.exists_eq_add_of_le' pl
    obtain ⟨n, rfl⟩ := Nat.exists_eq_add_of_le' pr
    nlinarith

/-! ### The paths of the tree CodeGen walks -/

section Counted
variable {freq : Table Word} {T : CodeTree}

/-- A sum over the counted byte values only. -/
theorem sumBytes_counted (freq : Table Word) (f : Byte → Nat) :
    sumBytes (fun b => if readAt freq b = 0 then 0 else f b) =
      ((allBytes.filter fun b => readAt freq b != 0).map f).sum := by
  simp only [sumBytes]
  induction allBytes with
  | nil => rfl
  | cons b l ih =>
    by_cases hz : readAt freq b = 0
    · rw [List.filter_cons_of_neg (by simp [hz]), List.map_cons, List.sum_cons, ih, if_pos hz, Nat.zero_add]
    · rw [List.filter_cons_of_pos (by simpa using hz), List.map_cons, List.map_cons, List.sum_cons, List.sum_cons, ih,
        if_neg hz]

/-- The paths are, up to order, the counted byte values with their codes. -/
theorem paths_perm_codes (hleaf : T.leafList.Perm (symbols freq))
    (hcode : ∀ b p, (b, p) ∈ T.paths [] → readAt (codeOf freq) b = p) :
    (T.paths []).Perm
      ((allBytes.filter fun b => readAt freq b != 0).map fun b => (b, readAt (codeOf freq) b)) := by
  have h : T.paths [] = ((T.paths []).map Prod.fst).map fun b => (b, readAt (codeOf freq) b) := by
    rw [List.map_map]
    conv_lhs => rw [← List.map_id (T.paths [])]
    refine List.map_congr_left ?_
    rintro ⟨b, p⟩ hp
    simp [hcode b p hp]
  rw [h, CodeTree.map_fst_paths, ← map_fst_symbols]
  exact (hleaf.map Prod.fst).map _

/-- A sum over the counted byte values and their code lengths is a sum over the tree's paths. -/
theorem sumBytes_paths (hleaf : T.leafList.Perm (symbols freq))
    (hcode : ∀ b p, (b, p) ∈ T.paths [] → readAt (codeOf freq) b = p) (f : Byte → Nat → Nat) :
    sumBytes (fun b => if readAt freq b = 0 then 0 else f b (codeLen (codeOf freq) b)) =
      ((T.paths []).map fun e => f e.1 e.2.length).sum := by
  rw [sumBytes_counted, ((paths_perm_codes hleaf hcode).map _).sum_eq, List.map_map]
  rfl

theorem CodeTree.weight_eq_sum (T : CodeTree) : T.weight = (T.leafList.map Prod.snd).sum := by
  induction T with
  | leaf b n => simp [CodeTree.weight, CodeTree.leafList]
  | node l r ihl ihr => simp [CodeTree.weight, CodeTree.leafList, ihl, ihr]

/-- R174: the weight of a tree over all the leaves is the sum of all counts. -/
theorem weight_eq_total (hleaf : T.leafList.Perm (symbols freq)) :
    T.weight = sumBytes fun b => (readAt freq b).toNat := by
  rw [T.weight_eq_sum, (hleaf.map _).sum_eq, symbols, List.map_map]
  refine Eq.trans ?_ ((sumBytes_counted freq fun b => (readAt freq b).toNat).symm.trans (sumBytes_congr fun b => ?_))
  · rfl
  · split
    · rename_i h
      simp [h]
    · rfl

end Counted

/-- R177: where all counts together are at most 2^32 - 1, merging the leaves by the counts in TREE is merging by
weight. -/
theorem Greedy.exact_leafTrees {freq : Table Word} {T : CodeTree} (h : MergedByCount (leafTrees freq) T)
    (hs : sumBytes (fun b => (readAt freq b).toNat) ≤ 2 ^ 32 - 1) : Greedy CodeTree.weight (leafTrees freq) T := by
  refine h.exact ?_
  have hleaf : T.leafList.Perm (symbols freq) := flatMap_leafList_leafTrees freq ▸ h.leafList
  have : (leafTrees freq).map CodeTree.weight = (symbols freq).map Prod.snd := by
    rw [leafTrees_eq_map, List.map_map]
    rfl
  rw [this, ← (hleaf.map _).sum_eq, ← T.weight_eq_sum, weight_eq_total hleaf]
  omega

/-! ### Greedy merging keeps siblings heavy -/

/-- u weighs at least as much as either child of t. -/
def HeavySibling (t u : CodeTree) : Prop :=
  match t with
  | .leaf _ _ => True
  | .node l r => max l.weight r.weight ≤ u.weight

/-- Leaves have positive counts, and each child of a node is a heavy sibling of the other. -/
def Balanced : CodeTree → Prop
  | .leaf _ n => 1 ≤ n
  | .node l r => HeavySibling l r ∧ HeavySibling r l ∧ Balanced l ∧ Balanced r

/-- A greedy merge of balanced trees, heavy siblings of each other, is balanced. -/
theorem Greedy.balanced {ts : List CodeTree} {T : CodeTree} (h : Greedy CodeTree.weight ts T) (hts : ∀ t ∈ ts, Balanced t)
    (hsib : ts.Pairwise fun t u => HeavySibling t u ∧ HeavySibling u t) : Balanced T := by
  induction h with
  | done T => exact hts T (by simp)
  | @merge ts rest x y T split least after ih =>
    have hts' : ∀ t ∈ x :: y :: rest, Balanced t := fun t ht => hts t (split.symm.subset ht)
    have hsib' := (split.pairwise_iff fun {a b} (h : HeavySibling a b ∧ HeavySibling b a) => And.symm h).1 hsib
    simp only [List.pairwise_cons, List.mem_cons] at hsib'
    obtain ⟨hx, hy, hrest⟩ := hsib'
    refine ih (fun t ht => ?_) (.cons (fun z hz => ⟨?_, ?_⟩) hrest)
    · rcases List.mem_cons.1 ht with rfl | ht
      · exact ⟨(hx y (.inl rfl)).1, (hx y (.inl rfl)).2, hts' x (by simp), hts' y (by simp)⟩
      · exact hts' t (by simp [ht])
    · exact max_le (least.1.trans (least.2 z hz)) (least.2 z hz)
    · have := (hx z (.inr hz)).2
      cases z with
      | leaf b n => trivial
      | node l r => simp only [HeavySibling, CodeTree.weight] at *; omega

theorem balanced_leafTrees (freq : Table Word) : (∀ t ∈ leafTrees freq, Balanced t) ∧
    (leafTrees freq).Pairwise fun t u => HeavySibling t u ∧ HeavySibling u t := by
  have hleaf : ∀ t ∈ leafTrees freq, ∃ b n, t = .leaf b n ∧ 1 ≤ n := by
    intro t ht
    rw [leafTrees_eq_map] at ht
    obtain ⟨⟨b, n⟩, hp, rfl⟩ := List.mem_map.1 ht
    obtain ⟨c, hc, he⟩ := List.mem_map.1 hp
    cases he
    have hne : readAt freq b ≠ 0 := by simpa using hc
    exact ⟨b, _, rfl, Nat.one_le_iff_ne_zero.2 fun h => hne (BitVec.eq_of_toNat_eq h)⟩
  refine ⟨fun t ht => ?_, List.pairwise_iff_getElem.2 fun i j hi hj _ => ?_⟩
  · obtain ⟨b, n, rfl, h⟩ := hleaf t ht
    exact h
  · obtain ⟨b, n, hb, -⟩ := hleaf _ (List.getElem_mem hi)
    obtain ⟨c, m, hc, -⟩ := hleaf _ (List.getElem_mem hj)
    rw [hb, hc]
    exact ⟨trivial, trivial⟩

theorem Balanced.weight_pos {T : CodeTree} (h : Balanced T) : 1 ≤ T.weight := by
  induction T with
  | leaf b n => exact h
  | node l r ihl _ => have := ihl h.2.2.1; simp only [CodeTree.weight]; omega

/-- R180's theorem on a balanced tree: a leaf d levels down needs a weight of at least F(d + 2), and then one of the
root's children has weight at least F(d + 1). -/
theorem Balanced.fib_le {T : CodeTree} (h : Balanced T) (hp : (b, p) ∈ T.paths pre) :
    Nat.fib (p.length - pre.length + 2) ≤ T.weight ∧
      ∀ l r, T = .node l r → Nat.fib (p.length - pre.length + 1) ≤ max l.weight r.weight := by
  have child : ∀ {t u : CodeTree} {pre' : Bits}, HeavySibling t u → Balanced u → (b, p) ∈ t.paths pre' →
      (∀ l r, t = .node l r → Nat.fib (p.length - pre'.length + 1) ≤ max l.weight r.weight) →
      Nat.fib (p.length - pre'.length + 1) ≤ u.weight := by
    intro t u pre' hs hu ht hc
    cases t with
    | leaf c n =>
      simp [CodeTree.paths] at ht
      simpa [ht.2] using hu.weight_pos
    | node l r => exact (hc l r rfl).trans hs
  induction T generalizing pre with
  | leaf c n =>
    simp [CodeTree.paths] at hp
    exact ⟨by simpa [hp.2, CodeTree.weight] using h.weight_pos, fun l r hT => by cases hT⟩
  | node l r ihl ihr =>
    simp only [CodeTree.paths, List.mem_append] at hp
    rcases hp with hp | hp
    · have hlen := (CodeTree.prefix_of_mem_paths hp).length_le
      obtain ⟨h₁, h₂⟩ := ihl h.2.2.1 hp
      have h₃ := child h.1 h.2.2.2 hp h₂
      rw [List.length_append, List.length_singleton] at *
      rw [show p.length - pre.length = p.length - (pre.length + 1) + 1 by omega]
      refine ⟨?_, fun l' r' hT => ?_⟩
      · rw [Nat.fib_add_two, CodeTree.weight]
        exact (Nat.add_comm _ _).trans_le (Nat.add_le_add h₁ h₃)
      · cases hT
        exact h₁.trans (le_max_left _ _)
    · have hlen := (CodeTree.prefix_of_mem_paths hp).length_le
      obtain ⟨h₁, h₂⟩ := ihr h.2.2.2 hp
      have h₃ := child h.2.1 h.2.2.1 hp h₂
      rw [List.length_append, List.length_singleton] at *
      rw [show p.length - pre.length = p.length - (pre.length + 1) + 1 by omega]
      refine ⟨?_, fun l' r' hT => ?_⟩
      · rw [Nat.fib_add_two, CodeTree.weight]
        exact Nat.add_le_add h₃ h₁
      · cases hT
        exact h₁.trans (le_max_right _ _)

end Sys2Proof.Laws
end

