-- ==== Sys2Proof/Laws/State.lean ====
section
/-! SUPPORT. One law per field for each named update of the state, so that later proofs unfold no update. -/

namespace Sys2Proof.Laws

open Sys2Proof.Machine

section RaiseError
variable (code : ErrCode) (w : Word) (s : State)

@[simp] theorem raiseError_phase : (raiseError code w s).phase = .error := rfl
@[simp] theorem raiseError_freq : (raiseError code w s).freq = s.freq := rfl
@[simp] theorem raiseError_origSize : (raiseError code w s).origSize = s.origSize := rfl
@[simp] theorem raiseError_code : (raiseError code w s).code = s.code := rfl
@[simp] theorem raiseError_tree : (raiseError code w s).tree = s.tree := rfl
@[simp] theorem raiseError_remain : (raiseError code w s).remain = s.remain := rfl
@[simp] theorem raiseError_totalBits : (raiseError code w s).totalBits = s.totalBits := rfl
@[simp] theorem raiseError_payloadBytes : (raiseError code w s).payloadBytes = s.payloadBytes := rfl
@[simp] theorem raiseError_padding : (raiseError code w s).padding = s.padding := rfl
@[simp] theorem raiseError_headerLen : (raiseError code w s).headerLen = s.headerLen := rfl
@[simp] theorem raiseError_packedIn : (raiseError code w s).packedIn = s.packedIn := rfl
@[simp] theorem raiseError_bitBuf : (raiseError code w s).bitBuf = s.bitBuf := rfl
@[simp] theorem raiseError_errCode : (raiseError code w s).errCode = code := rfl
@[simp] theorem raiseError_errPhase : (raiseError code w s).errPhase = s.phase := rfl
@[simp] theorem raiseError_errCmd : (raiseError code w s).errCmd = w := rfl
@[simp] theorem raiseError_out : (raiseError code w s).out = s.out := rfl
@[simp] theorem raiseError_hostQueue : (raiseError code w s).hostQueue = s.hostQueue := rfl
@[simp] theorem raiseError_busResponse : (raiseError code w s).busResponse = s.busResponse := rfl

end RaiseError

section StartRun
variable (s : State)

@[simp] theorem startRun_phase : (startRun s).phase = .counting := rfl
@[simp] theorem startRun_freq : (startRun s).freq = fillTable 0 := rfl
@[simp] theorem startRun_origSize : (startRun s).origSize = 0 := rfl
@[simp] theorem startRun_code : (startRun s).code = fillTable [] := rfl
@[simp] theorem startRun_tree : (startRun s).tree = [] := rfl
@[simp] theorem startRun_remain : (startRun s).remain = fillTable 0 := rfl
@[simp] theorem startRun_totalBits : (startRun s).totalBits = 0 := rfl
@[simp] theorem startRun_payloadBytes : (startRun s).payloadBytes = 0 := rfl
@[simp] theorem startRun_padding : (startRun s).padding = 0 := rfl
@[simp] theorem startRun_headerLen : (startRun s).headerLen = 0 := rfl
@[simp] theorem startRun_packedIn : (startRun s).packedIn = 0 := rfl
@[simp] theorem startRun_bitBuf : (startRun s).bitBuf = [] := rfl
@[simp] theorem startRun_errCode : (startRun s).errCode = .noError := rfl
@[simp] theorem startRun_errPhase : (startRun s).errPhase = .idle := rfl
@[simp] theorem startRun_errCmd : (startRun s).errCmd = 0 := rfl
@[simp] theorem startRun_out : (startRun s).out = s.out := rfl
@[simp] theorem startRun_hostQueue : (startRun s).hostQueue = s.hostQueue := rfl
@[simp] theorem startRun_busResponse : (startRun s).busResponse = s.busResponse := rfl

end StartRun

section ResetBlock
variable (s : State)

@[simp] theorem resetBlock_phase : (resetBlock s).phase = .idle := rfl
@[simp] theorem resetBlock_freq : (resetBlock s).freq = fillTable 0 := rfl
@[simp] theorem resetBlock_origSize : (resetBlock s).origSize = 0 := rfl
@[simp] theorem resetBlock_code : (resetBlock s).code = fillTable [] := rfl
@[simp] theorem resetBlock_tree : (resetBlock s).tree = [] := rfl
@[simp] theorem resetBlock_remain : (resetBlock s).remain = fillTable 0 := rfl
@[simp] theorem resetBlock_totalBits : (resetBlock s).totalBits = 0 := rfl
@[simp] theorem resetBlock_payloadBytes : (resetBlock s).payloadBytes = 0 := rfl
@[simp] theorem resetBlock_padding : (resetBlock s).padding = 0 := rfl
@[simp] theorem resetBlock_headerLen : (resetBlock s).headerLen = 0 := rfl
@[simp] theorem resetBlock_packedIn : (resetBlock s).packedIn = 0 := rfl
@[simp] theorem resetBlock_bitBuf : (resetBlock s).bitBuf = [] := rfl
@[simp] theorem resetBlock_errCode : (resetBlock s).errCode = .noError := rfl
@[simp] theorem resetBlock_errPhase : (resetBlock s).errPhase = .idle := rfl
@[simp] theorem resetBlock_errCmd : (resetBlock s).errCmd = 0 := rfl
@[simp] theorem resetBlock_out : (resetBlock s).out = s.out := rfl
@[simp] theorem resetBlock_hostQueue : (resetBlock s).hostQueue = s.hostQueue := rfl
@[simp] theorem resetBlock_busResponse : (resetBlock s).busResponse = none := rfl

end ResetBlock

section Emit
variable (bytes : List Byte) (s : State)

@[simp] theorem emit_phase : (emit bytes s).phase = s.phase := rfl
@[simp] theorem emit_freq : (emit bytes s).freq = s.freq := rfl
@[simp] theorem emit_origSize : (emit bytes s).origSize = s.origSize := rfl
@[simp] theorem emit_code : (emit bytes s).code = s.code := rfl
@[simp] theorem emit_tree : (emit bytes s).tree = s.tree := rfl
@[simp] theorem emit_remain : (emit bytes s).remain = s.remain := rfl
@[simp] theorem emit_totalBits : (emit bytes s).totalBits = s.totalBits := rfl
@[simp] theorem emit_payloadBytes : (emit bytes s).payloadBytes = s.payloadBytes := rfl
@[simp] theorem emit_padding : (emit bytes s).padding = s.padding := rfl
@[simp] theorem emit_headerLen : (emit bytes s).headerLen = s.headerLen := rfl
@[simp] theorem emit_packedIn : (emit bytes s).packedIn = s.packedIn := rfl
@[simp] theorem emit_bitBuf : (emit bytes s).bitBuf = s.bitBuf := rfl
@[simp] theorem emit_errCode : (emit bytes s).errCode = s.errCode := rfl
@[simp] theorem emit_errPhase : (emit bytes s).errPhase = s.errPhase := rfl
@[simp] theorem emit_errCmd : (emit bytes s).errCmd = s.errCmd := rfl
@[simp] theorem emit_out : (emit bytes s).out = s.out ++ bytes := rfl
@[simp] theorem emit_hostQueue : (emit bytes s).hostQueue = s.hostQueue := rfl
@[simp] theorem emit_busResponse : (emit bytes s).busResponse = s.busResponse := rfl

end Emit

section Push
variable (bits : Bits) (s : State)

@[simp] theorem push_phase : (push bits s).phase = s.phase := rfl
@[simp] theorem push_freq : (push bits s).freq = s.freq := rfl
@[simp] theorem push_origSize : (push bits s).origSize = s.origSize := rfl
@[simp] theorem push_code : (push bits s).code = s.code := rfl
@[simp] theorem push_tree : (push bits s).tree = s.tree := rfl
@[simp] theorem push_remain : (push bits s).remain = s.remain := rfl
@[simp] theorem push_totalBits : (push bits s).totalBits = s.totalBits := rfl
@[simp] theorem push_payloadBytes : (push bits s).payloadBytes = s.payloadBytes := rfl
@[simp] theorem push_padding : (push bits s).padding = s.padding := rfl
@[simp] theorem push_headerLen : (push bits s).headerLen = s.headerLen := rfl
@[simp] theorem push_packedIn : (push bits s).packedIn = s.packedIn := rfl
@[simp] theorem push_errCode : (push bits s).errCode = s.errCode := rfl
@[simp] theorem push_errPhase : (push bits s).errPhase = s.errPhase := rfl
@[simp] theorem push_errCmd : (push bits s).errCmd = s.errCmd := rfl
@[simp] theorem push_hostQueue : (push bits s).hostQueue = s.hostQueue := rfl
@[simp] theorem push_busResponse : (push bits s).busResponse = s.busResponse := rfl

/-- Push writes BITBUF and OUT and nothing else. -/
theorem push_frame : push bits s = { s with bitBuf := (push bits s).bitBuf, out := (push bits s).out } := rfl

end Push

section Respond
variable (r : BusResponse) (s : State)

@[simp] theorem respond_phase : (respond r s).phase = s.phase := rfl
@[simp] theorem respond_out : (respond r s).out = s.out := rfl
@[simp] theorem respond_hostQueue : (respond r s).hostQueue = s.hostQueue := rfl
@[simp] theorem respond_busResponse : (respond r s).busResponse = some r := rfl

/-- The bus's answer is recorded and nothing else changes. -/
theorem respond_frame : respond r s = { s with busResponse := some r } := rfl

/-- A read of any register sees nothing of the bus's answers. -/
@[simp] theorem readRegister_respond (off : Offset) : readRegister off (respond r s) = readRegister off s := rfl

end Respond

section WithFetchWord
variable (s : State) (nbits w : Nat)

@[simp] theorem withFetchWord_phase : (s.withFetchWord nbits w).phase = s.phase := rfl
@[simp] theorem withFetchWord_out : (s.withFetchWord nbits w).out = s.out := rfl

/-- withFetchWord puts one bus write before the host's other actions and changes nothing else. -/
theorem withFetchWord_frame :
    s.withFetchWord nbits w =
      { s with hostQueue := .write 0x000#12 4 (BitVec.ofNat 32 (w % 2 ^ nbits)) :: s.hostQueue } := rfl

end WithFetchWord

end Sys2Proof.Laws
end

