-- ==== Sys2Proof/Laws/Dispatch.lean ====
section
/-! SUPPORT. What performing a decoded command can do (spec/40_command_control.md R120), said once, and the encoding
facts the commands rest on. -/

namespace Sys2Proof.Laws

open Sys2Proof.Machine

section Perform
variable {c : Instr} {body : State → Except ErrCode State} {s t : State}

/-- In ERROR every command but START is ignored. -/
theorem perform_ignored (h : s.phase = .error) (hc : c ≠ .start) : perform c body s = .next s := by
  simp [perform, h, hc]

/-- Outside ERROR a command not legal in the phase raises ILLEGAL_COMMAND. -/
theorem perform_illegal (h : s.phase ≠ .error) (hl : legal c s.phase = false) :
    perform c body s = .next (raiseError .illegalCommand (encode c) s) := by
  simp [perform, h, hl]

/-- A legal command whose body succeeds leaves the body's state. -/
theorem perform_ok (h : s.phase ≠ .error ∨ c = .start) (hl : legal c s.phase = true) (hb : body s = .ok t) :
    perform c body s = .next t := by
  have : ¬ (s.phase = .error ∧ c ≠ .start) := by tauto
  simp [perform, this, hl, hb]

/-- A legal command whose body raises an error enters it, on the state before the command. -/
theorem perform_error {code : ErrCode} (h : s.phase ≠ .error) (hl : legal c s.phase = true)
    (hb : body s = .error code) : perform c body s = .next (raiseError code (encode c) s) := by
  simp [perform, h, hl, hb]

/-- Everything performing a command can do: it is ignored in ERROR, it is illegal in the phase, its body runs, or its
body raises an error. -/
theorem perform_cases (h : perform c body s = .next t) :
    (s.phase = .error ∧ c ≠ .start ∧ t = s) ∨
    ((s.phase ≠ .error ∨ c = .start) ∧ legal c s.phase = false ∧ t = raiseError .illegalCommand (encode c) s) ∨
    ((s.phase ≠ .error ∨ c = .start) ∧ legal c s.phase = true ∧ body s = .ok t) ∨
    ∃ code, (s.phase ≠ .error ∨ c = .start) ∧ legal c s.phase = true ∧ body s = .error code ∧
      t = raiseError code (encode c) s := by
  unfold perform at h
  split at h
  · rename_i h₁
    exact .inl ⟨h₁.1, h₁.2, by cases h; rfl⟩
  · have h₁ : s.phase ≠ .error ∨ c = .start := by tauto
    split at h
    · exact .inr (.inl ⟨h₁, ‹_›, by cases h; rfl⟩)
    · have hl : legal c s.phase = true := by simpa using ‹¬ legal c s.phase = false›
      split at h
      · exact .inr (.inr (.inl ⟨h₁, hl, by cases h; assumption⟩))
      · exact .inr (.inr (.inr ⟨_, h₁, hl, ‹_›, by cases h; rfl⟩))

/-- Performing a command always answers a next state. -/
theorem perform_answers : ∃ t, perform c body s = .next t := by
  unfold perform
  split
  · exact ⟨_, rfl⟩
  · split
    · exact ⟨_, rfl⟩
    · split <;> exact ⟨_, rfl⟩

end Perform

/-- The own effect of each command, the pseudocode `Execute(c)` of its rule. -/
def effect : Instr → State → Except ErrCode State
  | .nop => fun s => .ok s
  | .start => fun s => .ok (startRun s)
  | .count d => countBody d
  | .build => buildBody
  | .pack d => packBody d
  | .finish => finishBody
  | .ioerr => fun _ => .error .ioError

/-- Every meaning is its own effect under the shared dispatch. -/
theorem exec_eq_perform (c : Instr) (s : State) : exec c s = perform c (effect c) s := by
  cases c <;> rfl

/-- Every command answers a next state, in every state. -/
theorem exec_answers (c : Instr) (s : State) : ∃ t, exec c s = .next t := by
  rw [exec_eq_perform]
  exact perform_answers

/-- A word is the one word of the command it decodes to only if its fields are that command's (R92). -/
theorem word_of_fields (w : Word) :
    w.toNat = (fieldRsvd w).toNat * 65536 + (fieldOp w).toNat * 256 + (fieldData w).toNat := by
  simp only [fieldRsvd, fieldOp, fieldData, BitVec.extractLsb'_toNat, Nat.shiftRight_eq_div_pow]
  have := w.isLt
  omega

theorem toNat_encode_count (d : Byte) : (encode (.count d)).toNat = 512 + d.toNat := by
  have := d.isLt
  simp only [encode, BitVec.toNat_or, BitVec.toNat_setWidth]
  rw [Nat.mod_eq_of_lt (by omega)]
  exact (Nat.two_pow_add_eq_or_of_lt (i := 9) (by omega) 1).symm

theorem toNat_encode_pack (d : Byte) : (encode (.pack d)).toNat = 1024 + d.toNat := by
  have := d.isLt
  simp only [encode, BitVec.toNat_or, BitVec.toNat_setWidth]
  rw [Nat.mod_eq_of_lt (by omega)]
  exact (Nat.two_pow_add_eq_or_of_lt (i := 10) (by omega) 1).symm

end Sys2Proof.Laws
end

