-- ==== Sys2Proof/Laws/Effects.lean ====
section
/-! SUPPORT. For each command's own effect: exactly when it succeeds and with which state, and exactly when it raises an
error and which. -/

namespace Sys2Proof.Laws

open Sys2Proof.Machine

variable {s t : State} {d : Byte} {code : ErrCode}

theorem countBody_ok : countBody d s = .ok t ↔ s.origSize ≠ Config.maxInputLen ∧
    t = { s with freq := writeAt s.freq d (readAt s.freq d + 1), origSize := s.origSize + 1 } := by
  unfold countBody
  split <;> simp_all [eq_comm]

theorem countBody_error : countBody d s = .error code ↔ s.origSize = Config.maxInputLen ∧ code = .countOverflow := by
  unfold countBody
  split <;> simp_all [eq_comm]

theorem buildBody_ok : buildBody s = .ok t ↔ nsym s.freq ≠ 0 ∧ nsym s.freq - 1 ≤ Config.maxHeaderCount ∧
    codeTooLong (codeOf s.freq) = false ∧ t = buildResult (treeBuild s.freq).1 (codeOf s.freq) s := by
  unfold buildBody codeOf
  dsimp only
  split_ifs with h₁ h₂
  · simp [h₁]
  · simp only [false_iff]
    rintro ⟨-, h, h', -⟩
    rcases h₂ with h₂ | h₂
    · omega
    · exact absurd h₂ (by simp [h'])
  · simp only [not_or, Bool.not_eq_true, gt_iff_lt, not_lt] at h₂
    simp [h₁, h₂, eq_comm]

theorem buildBody_error : buildBody s = .error code ↔ (nsym s.freq = 0 ∧ code = .emptyInput) ∨
    (nsym s.freq ≠ 0 ∧ code = .formatOverflow ∧
      (Config.maxHeaderCount < nsym s.freq - 1 ∨ codeTooLong (codeOf s.freq) = true)) := by
  unfold buildBody codeOf
  dsimp only
  split_ifs with h₁ h₂
  · refine ⟨fun h => .inl ⟨h₁, by cases h; rfl⟩, ?_⟩
    rintro (⟨-, rfl⟩ | ⟨h, -⟩)
    · rfl
    · exact absurd h₁ h
  · refine ⟨fun h => .inr ⟨h₁, by cases h; rfl, h₂⟩, ?_⟩
    rintro (⟨h, -⟩ | ⟨-, rfl, -⟩)
    · exact absurd h h₁
    · rfl
  · refine ⟨fun h => (nomatch h), ?_⟩
    rintro (⟨h, -⟩ | ⟨-, -, h⟩)
    · exact absurd h h₁
    · exact absurd h h₂

theorem packBody_ok : packBody d s = .ok t ↔ readAt s.remain d ≠ 0 ∧
    t = push (readAt s.code d)
      { s with remain := writeAt s.remain d (readAt s.remain d - 1), packedIn := s.packedIn + 1 } := by
  unfold packBody
  split <;> simp_all [eq_comm]

theorem packBody_error : packBody d s = .error code ↔ readAt s.remain d = 0 ∧ code = .inputMismatch := by
  unfold packBody
  split <;> simp_all [eq_comm]

theorem finishBody_ok : finishBody s = .ok t ↔ s.packedIn = s.origSize ∧
    t = { push (zeros s.padding.toNat) s with phase := .done } := by
  unfold finishBody
  split <;> simp_all [eq_comm]

theorem finishBody_error : finishBody s = .error code ↔ s.packedIn ≠ s.origSize ∧ code = .inputMismatch := by
  unfold finishBody
  split <;> simp_all [eq_comm]

end Sys2Proof.Laws
end

