-- ==== Sys2Proof/Laws/Optimality.lean ====
section
/-! SUPPORT. Greedy merging is optimal, and prefix codes meet the Kraft inequality: the standard theorem that
spec/42_huffman_tree_builder.md R179 names, on code trees. -/

namespace Sys2Proof.Laws

open Sys2Proof.Machine

/-- A tree with the depth it is given. -/
abbrev Placed := CodeTree × Nat

/-- The Kraft sum of some depths, scaled by 2^D. -/
def kraftSum (D : Nat) (rs : List Placed) : Nat := (rs.map fun r => 2 ^ (D - r.2)).sum

/-- The cost of some placed trees: weight times depth. -/
def placedCost (rs : List Placed) : Nat := (rs.map fun r => r.1.weight * r.2).sum

/-- The cost of a tree: the sum of its internal nodes' weights. -/
def CodeTree.cost : CodeTree → Nat
  | .leaf _ _ => 0
  | .node l r => l.weight + r.weight + l.cost + r.cost

section Exchange
variable {D : Nat} {rs rs' : List Placed}

theorem kraftSum_perm (h : rs.Perm rs') : kraftSum D rs = kraftSum D rs' := (h.map _).sum_eq
theorem placedCost_perm (h : rs.Perm rs') : placedCost rs = placedCost rs' := (h.map _).sum_eq

@[simp] theorem kraftSum_cons (D : Nat) (r : Placed) (rs : List Placed) :
    kraftSum D (r :: rs) = 2 ^ (D - r.2) + kraftSum D rs := by simp [kraftSum]

@[simp] theorem placedCost_cons (r : Placed) (rs : List Placed) :
    placedCost (r :: rs) = r.1.weight * r.2 + placedCost rs := by simp [placedCost]

theorem dvd_kraftSum {m : Nat} (h : ∀ r ∈ rs, r.2 < m) (hm : m ≤ D) : 2 ^ (D - m + 1) ∣ kraftSum D rs := by
  induction rs with
  | nil => simp [kraftSum]
  | cons r rs ih =>
    rw [kraftSum_cons]
    have := h r (by simp)
    exact Nat.dvd_add (Nat.pow_dvd_pow 2 (by omega)) (ih fun r' hr' => h r' (by simp [hr']))

/-- The heavier the shallower. -/
theorem exchange_le {a b x y : Nat} (hab : a ≤ b) (hxy : x ≤ y) : a * y + b * x ≤ a * x + b * y := by
  obtain ⟨c, rfl⟩ := Nat.exists_eq_add_of_le hab
  obtain ⟨d, rfl⟩ := Nat.exists_eq_add_of_le hxy
  nlinarith

theorem exists_deepest (a b : Nat) (rs : List Placed) :
    ∃ L, (L = a ∨ L = b ∨ ∃ r ∈ rs, r.2 = L) ∧ a ≤ L ∧ b ≤ L ∧ ∀ r ∈ rs, r.2 ≤ L := by
  induction rs with
  | nil =>
    rcases le_total a b with h | h
    · exact ⟨b, by simp, h, le_rfl, by simp⟩
    · exact ⟨a, by simp, le_rfl, h, by simp⟩
  | cons r rs ih =>
    obtain ⟨L, hL, ha, hb, hrs⟩ := ih
    rcases le_total r.2 L with h | h
    · refine ⟨L, ?_, ha, hb, List.forall_mem_cons.2 ⟨h, hrs⟩⟩
      rcases hL with hL | hL | ⟨q, hq, hL⟩
      · exact .inl hL
      · exact .inr (.inl hL)
      · exact .inr (.inr ⟨q, by simp [hq], hL⟩)
    · exact ⟨r.2, .inr (.inr ⟨r, by simp, rfl⟩), ha.trans h, hb.trans h,
        List.forall_mem_cons.2 ⟨le_rfl, fun q hq => (hrs q hq).trans h⟩⟩

/-- The trees can be placed at no more cost so that x and y hang together, at depth m + 1. -/
def Pairable (D : Nat) (x y : CodeTree) (dx dy : Nat) (rs : List Placed) : Prop :=
  ∃ m rs', (rs'.map Prod.fst).Perm (rs.map Prod.fst) ∧ m + 1 ≤ D ∧ (∀ r ∈ rs', r.2 ≤ D) ∧
    2 ^ (D - m) + kraftSum D rs' ≤ 2 ^ D ∧
    (x.weight + y.weight) * (m + 1) + placedCost rs' ≤ x.weight * dx + y.weight * dy + placedCost rs

/-- Two lightest trees of a placement that meets the Kraft inequality can be paired. By induction on the sum of the
depths: the deepest place is given to x; if another tree is as deep, its place is given to y; if none is, x can come up
one level, since the Kraft sum of the others is a multiple of twice x's share. -/
theorem pairable (D : Nat) : ∀ (N : Nat) (x y : CodeTree) (dx dy : Nat) (rs : List Placed),
    dx + dy + (rs.map Prod.snd).sum ≤ N → x.weight ≤ y.weight → (∀ r ∈ rs, y.weight ≤ r.1.weight) →
    dx ≤ D → dy ≤ D → (∀ r ∈ rs, r.2 ≤ D) → 2 ^ (D - dx) + 2 ^ (D - dy) + kraftSum D rs ≤ 2 ^ D →
    Pairable D x y dx dy rs := by
  intro N
  induction N with
  | zero =>
    intro x y dx dy rs hN _ _ _ _ _ hk
    obtain ⟨rfl, rfl⟩ : dx = 0 ∧ dy = 0 := by omega
    have := Nat.two_pow_pos D
    simp at hk
    omega
  | succ N ih =>
    have deepest : ∀ (x y : CodeTree) (dx dy : Nat) (rs : List Placed), dx + dy + (rs.map Prod.snd).sum ≤ N + 1 →
        x.weight ≤ y.weight → (∀ r ∈ rs, y.weight ≤ r.1.weight) → dx ≤ D → dy ≤ dx → (∀ r ∈ rs, r.2 ≤ dx) →
        2 ^ (D - dx) + 2 ^ (D - dy) + kraftSum D rs ≤ 2 ^ D → Pairable D x y dx dy rs := by
      intro x y dx dy rs hN hxy hrest hD hdy hrs hk
      have hdx : 1 ≤ dx := by
        by_contra h
        obtain ⟨rfl, rfl⟩ : dx = 0 ∧ dy = 0 := by omega
        have := Nat.two_pow_pos D
        simp at hk
        omega
      have up : 2 ^ (D - (dx - 1)) = 2 ^ (D - dx) + 2 ^ (D - dx) := by
        rw [show D - (dx - 1) = D - dx + 1 by omega, Nat.pow_succ]
        omega
      by_cases hdd : dy = dx
      · subst hdd
        refine ⟨dy - 1, rs, .refl _, by omega, fun r h => (hrs r h).trans hD, by rw [up]; exact hk, ?_⟩
        rw [show dy - 1 + 1 = dy by omega]
        nlinarith
      by_cases hdeep : ∃ r ∈ rs, r.2 = dx
      · obtain ⟨r, hr, rfl⟩ := hdeep
        have hperm := List.perm_cons_erase hr
        have hK := kraftSum_perm (D := D) hperm
        have hC := placedCost_perm hperm
        rw [kraftSum_cons] at hK
        rw [placedCost_cons] at hC
        refine ⟨r.2 - 1, (r.1, dy) :: rs.erase r, ?_, by omega, ?_, ?_, ?_⟩
        · simpa using (hperm.map Prod.fst).symm
        · exact List.forall_mem_cons.2 ⟨hdy.trans hD, fun q hq => (hrs q (List.erase_subset hq)).trans hD⟩
        · rw [up, kraftSum_cons]
          dsimp only
          omega
        · rw [placedCost_cons, hC, show r.2 - 1 + 1 = r.2 by omega]
          have := exchange_le (hrest r hr) hdy
          dsimp only
          nlinarith
      · have hlt : ∀ r ∈ rs, r.2 < dx := fun r h => lt_of_le_of_ne (hrs r h) fun e => hdeep ⟨r, h, e⟩
        have hk' : 2 ^ (D - (dx - 1)) + 2 ^ (D - dy) + kraftSum D rs ≤ 2 ^ D := by
          rw [up]
          obtain ⟨a, ha⟩ := Nat.dvd_add (Nat.pow_dvd_pow 2 (by omega : D - dx + 1 ≤ D - dy)) (dvd_kraftSum hlt hD)
          obtain ⟨c, hc⟩ := Nat.pow_dvd_pow 2 (by omega : D - dx + 1 ≤ D)
          rw [Nat.pow_succ] at ha hc
          have := Nat.two_pow_pos (D - dx)
          generalize 2 ^ (D - dx) = k at *
          rw [hc] at hk ⊢
          have hac : a < c := by
            by_contra h
            have : k * 2 * c ≤ k * 2 * a := Nat.mul_le_mul_left _ (by omega)
            omega
          have : k * 2 * (a + 1) ≤ k * 2 * c := Nat.mul_le_mul_left _ hac
          rw [Nat.mul_add] at this
          omega
        obtain ⟨m, rs', h₁, h₂, h₃, h₄, h₅⟩ :=
          ih x y (dx - 1) dy rs (by omega) hxy hrest (by omega) (by omega) (fun r h => (hrs r h).trans hD) hk'
        refine ⟨m, rs', h₁, h₂, h₃, h₄, h₅.trans ?_⟩
        have := Nat.mul_le_mul_left x.weight (Nat.sub_le dx 1)
        omega
    intro x y dx dy rs hN hxy hrest hdx hdy hrs hk
    obtain ⟨L, hL, hxL, hyL, hrsL⟩ := exists_deepest dx dy rs
    rcases hL with rfl | rfl | ⟨r, hr, rfl⟩
    · exact deepest x y L dy rs hN hxy hrest hdx hyL hrsL hk
    · obtain ⟨m, rs', h₁, h₂, h₃, h₄, h₅⟩ := deepest x y L dx rs (by omega) hxy hrest hdy hxL hrsL (by omega)
      refine ⟨m, rs', h₁, h₂, h₃, h₄, h₅.trans ?_⟩
      have := exchange_le hxy hxL
      omega
    · have hperm := List.perm_cons_erase hr
      have hK := kraftSum_perm (D := D) hperm
      have hC := placedCost_perm hperm
      have hS := (hperm.map Prod.snd).sum_eq
      rw [kraftSum_cons] at hK
      rw [placedCost_cons] at hC
      rw [List.map_cons, List.sum_cons] at hS
      obtain ⟨m, rs', h₁, h₂, h₃, h₄, h₅⟩ := deepest x y r.2 dy ((r.1, dx) :: rs.erase r)
        (by simp only [List.map_cons, List.sum_cons]; omega) hxy
        (List.forall_mem_cons.2 ⟨hrest r hr, fun q hq => hrest q (List.erase_subset hq)⟩) (hrs r hr) hyL
        (List.forall_mem_cons.2 ⟨hxL, fun q hq => hrsL q (List.erase_subset hq)⟩)
        (by rw [kraftSum_cons]; dsimp only; omega)
      refine ⟨m, rs', h₁.trans ?_, h₂, h₃, h₄, h₅.trans ?_⟩
      · simpa using (hperm.map Prod.fst).symm
      · rw [placedCost_cons, hC]
        dsimp only
        have := exchange_le (hxy.trans (hrest r hr)) hxL
        omega

end Exchange

/-- A placement of the trees of a list has one of its first tree. -/
theorem placed_perm {ps : List Placed} {t : CodeTree} {ts : List CodeTree} (h : (ps.map Prod.fst).Perm (t :: ts)) :
    ∃ d qs, ps.Perm ((t, d) :: qs) ∧ (qs.map Prod.fst).Perm ts := by
  obtain ⟨⟨t', d⟩, hp, rfl⟩ := List.mem_map.1 (h.symm.subset (by simp : t ∈ t :: ts))
  have := List.perm_cons_erase hp
  exact ⟨d, _, this, List.Perm.cons_inv ((this.map Prod.fst).symm.trans h)⟩

/-- R179's theorem: a greedy merge costs no more than any placement of the trees it merges that meets the Kraft
inequality. -/
theorem Greedy.cost_le {ts : List CodeTree} {T : CodeTree} (h : Greedy CodeTree.weight ts T) {D : Nat} {ps : List Placed}
    (hps : (ps.map Prod.fst).Perm ts) (hD : ∀ r ∈ ps, r.2 ≤ D) (hk : kraftSum D ps ≤ 2 ^ D) :
    T.cost ≤ placedCost ps + (ts.map CodeTree.cost).sum := by
  induction h generalizing ps with
  | done T => simp
  | @merge ts rest x y T split least after ih =>
    obtain ⟨dx, qs, hqs, hqs'⟩ := placed_perm (hps.trans split)
    obtain ⟨dy, rs, hrs, hrs'⟩ := placed_perm hqs'
    have hperm := hqs.trans (hrs.cons _)
    have hK := kraftSum_perm (D := D) hperm
    have hC := placedCost_perm hperm
    simp only [kraftSum_cons, placedCost_cons] at hK hC
    obtain ⟨m, rs', h₁, h₂, h₃, h₄, h₅⟩ := pairable D _ x y dx dy rs le_rfl least.1
      (fun r hr => least.2 _ (hrs'.subset (List.mem_map_of_mem hr))) (hD (x, dx) (hperm.symm.subset (by simp)))
      (hD (y, dy) (hperm.symm.subset (by simp))) (fun r hr => hD r (hperm.symm.subset (by simp [hr]))) (by omega)
    have hT := ih (ps := (.node x y, m) :: rs') (by simpa using h₁.trans hrs')
      (List.forall_mem_cons.2 ⟨by show m ≤ D; omega, h₃⟩) (by simpa using h₄)
    have hS : (ts.map CodeTree.cost).sum = x.cost + (y.cost + (rest.map CodeTree.cost).sum) := by
      simpa using (split.map CodeTree.cost).sum_eq
    rw [placedCost_cons] at hT
    simp only [List.map_cons, List.sum_cons, CodeTree.cost, CodeTree.weight] at hT
    rw [Nat.mul_succ] at h₅
    omega

/-- The cost of a tree is the sum over its leaves of weight times depth. -/
theorem CodeTree.sum_paths_eq_cost (T : CodeTree) (pre : Bits) (w : Byte → Nat) (hw : ∀ p ∈ T.leafList, p.2 = w p.1) :
    ((T.paths pre).map fun e => w e.1 * e.2.length).sum = T.cost + T.weight * pre.length := by
  induction T generalizing pre with
  | leaf b n =>
    have := hw (b, n) (by simp [CodeTree.leafList])
    simp only at this
    simp [CodeTree.paths, CodeTree.cost, CodeTree.weight, this]
  | node l r ihl ihr =>
    simp only [CodeTree.leafList, List.mem_append] at hw
    have hl := ihl (pre ++ [false]) fun p hp => hw p (.inl hp)
    have hr := ihr (pre ++ [true]) fun p hp => hw p (.inr hp)
    simp only [CodeTree.paths, List.map_append, List.sum_append, hl, hr, CodeTree.cost, CodeTree.weight,
      List.length_append, List.length_singleton]
    ring

/-! ### The Kraft inequality -/

/-- What follows the first bit h in the words that begin with it. -/
def tails (h : Bool) (cs : List Bits) : List Bits :=
  cs.filterMap fun c => match c with | [] => none | b :: t => if b = h then some t else none

/-- The Kraft sum of some words, scaled by 2^D. -/
def wordSum (D : Nat) (cs : List Bits) : Nat := (cs.map fun c => 2 ^ (D - c.length)).sum

theorem wordSum_tails (D : Nat) {cs : List Bits} (h : [] ∉ cs) :
    wordSum (D + 1) cs = wordSum D (tails false cs) + wordSum D (tails true cs) := by
  induction cs with
  | nil => rfl
  | cons c cs ih =>
    simp only [List.mem_cons, not_or] at h
    cases c with
    | nil => exact absurd rfl h.1
    | cons b t =>
      have := ih h.2
      cases b <;> simp [tails, wordSum] at * <;> omega

/-- Words of which none is a prefix of another meet the Kraft inequality. -/
theorem wordSum_le {D : Nat} {cs : List Bits} (hp : cs.Pairwise fun a b => ¬ a <+: b ∧ ¬ b <+: a)
    (hl : ∀ c ∈ cs, c.length ≤ D) : wordSum D cs ≤ 2 ^ D := by
  by_cases h0 : [] ∈ cs
  · have : cs = [[]] := by
      match cs with
      | [] => simp at h0
      | [c] => simp at h0; simp [h0]
      | a :: b :: cs =>
        exfalso
        rcases List.mem_cons.1 h0 with rfl | h0
        · exact absurd List.nil_prefix ((List.pairwise_cons.1 hp).1 b (by simp)).1
        · exact ((List.pairwise_cons.1 hp).1 _ h0).2 List.nil_prefix
    simp [this, wordSum]
  induction D generalizing cs with
  | zero =>
    match cs with
    | [] => simp [wordSum]
    | c :: cs =>
      have := List.eq_nil_of_length_eq_zero (Nat.le_zero.1 (hl c (by simp)))
      simp [this] at h0
  | succ D ih =>
    have half : ∀ h, wordSum D (tails h cs) ≤ 2 ^ D := by
      intro h
      have hp' : (tails h cs).Pairwise fun a b => ¬ a <+: b ∧ ¬ b <+: a := by
        unfold tails
        rw [List.pairwise_filterMap]
        refine hp.imp fun {a b} hab t ht t' ht' => ?_
        cases a with
        | nil => simp at ht
        | cons x a =>
          cases b with
          | nil => simp at ht'
          | cons y b =>
            simp at ht ht'
            obtain ⟨rfl, rfl⟩ := ht
            obtain ⟨rfl, rfl⟩ := ht'
            simpa using hab
      have hl' : ∀ t ∈ tails h cs, t.length ≤ D := by
        intro t ht
        obtain ⟨c, hc, h'⟩ := List.mem_filterMap.1 ht
        cases c with
        | nil => simp at h'
        | cons b c =>
          simp at h'
          obtain ⟨-, rfl⟩ := h'
          have := hl _ hc
          simp at this
          omega
      by_cases hnil : [] ∈ tails h cs
      · have : tails h cs = [[]] := by
          match htails : tails h cs, hnil, hp' with
          | [c], hnil, _ => simp at hnil; simp [hnil]
          | a :: b :: l, hnil, hp' =>
            exfalso
            rcases List.mem_cons.1 hnil with rfl | hnil
            · exact absurd List.nil_prefix ((List.pairwise_cons.1 hp').1 b (by simp)).1
            · exact ((List.pairwise_cons.1 hp').1 _ hnil).2 List.nil_prefix
        simp [this, wordSum]
      · exact ih hp' hl' hnil
    have := half false
    have := half true
    rw [wordSum_tails D h0, Nat.pow_succ]
    omega

end Sys2Proof.Laws
end

