-- ==== Sys2Proof/Laws/Packer.lean ====
section
/-! SUPPORT. What Push does (spec/45_bit_packer.md R250, R251): the bytes it emits and the bits it keeps are, in order,
exactly the bits it was given. -/

namespace Sys2Proof.Laws

open Sys2Proof.Machine

@[simp] theorem length_byteBits (v : Byte) : (byteBits v).length = 8 := rfl

/-- Eight bits make a byte whose bits, most significant first, are those eight (R7, R66). -/
theorem byteBits_bitsToByte {s : Bits} (h : s.length = 8) : byteBits (bitsToByte s) = s := by
  match s, h with
  | [b7, b6, b5, b4, b3, b2, b1, b0], _ =>
    revert b7 b6 b5 b4 b3 b2 b1 b0
    decide

/-- The other way round: a byte is the byte of its own bits. -/
theorem bitsToByte_byteBits (v : Byte) : bitsToByte (byteBits v) = v := by
  revert v
  decide

/-- R250: the emitted bytes' bits and the bits left are the buffer; what is left is its length modulo 8. -/
theorem drain_spec (fuel : Nat) (buf : Bits) (h : buf.length ≤ fuel) :
    (drain fuel buf).1.flatMap byteBits ++ (drain fuel buf).2 = buf ∧
    (drain fuel buf).1.length = buf.length / 8 ∧ (drain fuel buf).2.length = buf.length % 8 := by
  induction fuel generalizing buf with
  | zero => simp [drain, List.length_eq_zero_iff.1 (Nat.le_zero.1 h)]
  | succ fuel ih =>
    unfold drain
    split
    · rename_i h8
      obtain ⟨hbits, hbytes, hleft⟩ := ih (buf.drop 8) (by simp; omega)
      refine ⟨?_, ?_, ?_⟩
      · rw [List.flatMap_cons, byteBits_bitsToByte (by simp; omega), List.append_assoc, hbits, List.take_append_drop]
      · simp only [List.length_cons, hbytes, List.length_drop]; omega
      · simp only [hleft, List.length_drop]; omega
    · refine ⟨rfl, ?_, ?_⟩ <;> simp <;> omega

/-- R250: Push emits some bytes whose bits, followed by the new BITBUF, are the old BITBUF followed by the pushed bits. -/
theorem push_spec (bits : Bits) (s : State) :
    ∃ bytes, (push bits s).out = s.out ++ bytes ∧
      bytes.flatMap byteBits ++ (push bits s).bitBuf = s.bitBuf ++ bits ∧
      bytes.length = (s.bitBuf.length + bits.length) / 8 ∧
      (push bits s).bitBuf.length = (s.bitBuf.length + bits.length) % 8 := by
  obtain ⟨hbits, hbytes, hleft⟩ := drain_spec _ (s.bitBuf ++ bits) le_rfl
  exact ⟨_, rfl, hbits, hbytes.trans (by simp), hleft.trans (by simp)⟩

end Sys2Proof.Laws
end

