-- ==== Sys2Proof/Laws/PerInstr.lean ====
section
/-! SUPPORT. The statements made per command: the fields of a command's word (spec/30_encoding.md R91, R92). -/

namespace Sys2Proof.Laws.Fields

open Sys2Proof.Machine

/-- R91, R92: the word of a command has RSVD 0, the command's OP, and its operand in DATA (0 where it has none). -/
def Statement (i : Instr) : Prop :=
  fieldRsvd (encode i) = 0 ∧ fieldOp (encode i) = opcodeOf i ∧ fieldData (encode i) = (operand i).getD 0

theorem nop : Statement .nop := by unfold Statement; decide

theorem start : Statement .start := by unfold Statement; decide

theorem count (d : Byte) : Statement (.count d) := by
  have := toNat_encode_count d
  have := d.isLt
  refine ⟨?_, ?_, ?_⟩ <;> apply BitVec.eq_of_toNat_eq <;>
    simp only [fieldRsvd, fieldOp, fieldData, BitVec.extractLsb'_toNat, Nat.shiftRight_eq_div_pow, operand, opcodeOf,
      Option.getD_some, BitVec.ofNat_eq_ofNat, BitVec.toNat_ofNat] <;> omega

theorem build : Statement .build := by unfold Statement; decide

theorem pack (d : Byte) : Statement (.pack d) := by
  have := toNat_encode_pack d
  have := d.isLt
  refine ⟨?_, ?_, ?_⟩ <;> apply BitVec.eq_of_toNat_eq <;>
    simp only [fieldRsvd, fieldOp, fieldData, BitVec.extractLsb'_toNat, Nat.shiftRight_eq_div_pow, operand, opcodeOf,
      Option.getD_some, BitVec.ofNat_eq_ofNat, BitVec.toNat_ofNat] <;> omega

theorem finish : Statement .finish := by unfold Statement; decide

theorem ioerr : Statement .ioerr := by unfold Statement; decide

end Sys2Proof.Laws.Fields
end

