-- ==== Sys2Proof/Laws/Step.lean ====
section
/-! SUPPORT. Everything a command and a step can do, said once. -/

namespace Sys2Proof.Laws

open Sys2Proof.Machine

/-- A command's own effect never raises the code NONE. -/
theorem effect_error_ne {c : Instr} {s : State} {code : ErrCode} (h : effect c s = .error code) : code ≠ .noError := by
  cases c with
  | nop => simp [effect] at h
  | start => simp [effect] at h
  | count d => obtain ⟨-, rfl⟩ := countBody_error.1 h; simp
  | build => rcases buildBody_error.1 h with ⟨-, rfl⟩ | ⟨-, rfl, -⟩ <;> simp
  | pack d => obtain ⟨-, rfl⟩ := packBody_error.1 h; simp
  | finish => obtain ⟨-, rfl⟩ := finishBody_error.1 h; simp
  | ioerr => simp [effect] at h; subst h; simp

/-- A command that performs its own effect does not enter ERROR. -/
theorem effect_ok_phase {c : Instr} {s t : State} (h : effect c s = .ok t) (hs : s.phase ≠ .error) :
    t.phase ≠ .error := by
  cases c with
  | nop => simp [effect] at h; subst h; exact hs
  | start => simp [effect] at h; subst h; simp
  | count d => obtain ⟨-, rfl⟩ := countBody_ok.1 h; exact hs
  | build => obtain ⟨-, -, -, rfl⟩ := buildBody_ok.1 h; simp [buildResult]
  | pack d => obtain ⟨-, rfl⟩ := packBody_ok.1 h; simpa using hs
  | finish => obtain ⟨-, rfl⟩ := finishBody_ok.1 h; simp
  | ioerr => simp [effect] at h

/-- Everything a command can do: in ERROR it is ignored; outside ERROR it enters ERROR, because it is not legal in the
phase or because its own effect raises an error; or it performs its own effect. -/
theorem exec_cases {c : Instr} {s t : State} (h : exec c s = .next t) :
    (s.phase = .error ∧ c ≠ .start ∧ t = s) ∨
    (∃ code, code ≠ .noError ∧ s.phase ≠ .error ∧ t = raiseError code (encode c) s ∧
      ((legal c s.phase = false ∧ code = .illegalCommand) ∨ (legal c s.phase = true ∧ effect c s = .error code))) ∨
    (legal c s.phase = true ∧ effect c s = .ok t ∧ (s.phase ≠ .error ∨ c = .start)) := by
  rw [exec_eq_perform] at h
  rcases perform_cases h with h | ⟨h₁, h₂, h⟩ | ⟨h₁, h₂, h⟩ | ⟨code, h₁, h₂, h, h'⟩
  · exact .inl h
  · refine .inr (.inl ⟨_, by simp, ?_, h, .inl ⟨h₂, rfl⟩⟩)
    rcases h₁ with h₁ | rfl
    · exact h₁
    · simp [legal] at h₂
  · exact .inr (.inr ⟨h₂, h, h₁⟩)
  · refine .inr (.inl ⟨_, effect_error_ne h, ?_, h', .inr ⟨h₂, h⟩⟩)
    rcases h₁ with h₁ | rfl
    · exact h₁
    · simp [effect] at h

/-- The state a step performs the host's write to CMD on: the write is off the queue and accepted. -/
def taken (rest : List HostAction) (s : State) : State := { s with hostQueue := rest, busResponse := some .accepted }

/-- Everything a step can do: wait, reset, answer an access, reject an illegal word, or run a command. -/
theorem step_cases {s t : State} (h : step s = .next t) :
    (s.hostQueue = [] ∧ t = s) ∨
    (∃ rest, s.hostQueue = .reset :: rest ∧ t = resetBlock { s with hostQueue := rest }) ∨
    (∃ a rest r, s.hostQueue = a :: rest ∧ t = { s with hostQueue := rest, busResponse := some r }) ∨
    (∃ w rest, s.hostQueue = .write 0x000#12 4 w :: rest ∧ (∃ why, decode w = .illegal why) ∧ s.phase ≠ .error ∧
      t = raiseError .illegalCommand w (taken rest s)) ∨
    ∃ w rest c, s.hostQueue = .write 0x000#12 4 w :: rest ∧ decode w = .command c ∧ exec c (taken rest s) = .next t := by
  unfold step takeAction at h
  split at h
  · rename_i hq
    cases h
    exact .inl ⟨hq, rfl⟩
  · rename_i a rest hq
    unfold performAction at h
    split at h
    · unfold busRead at h
      split at h <;> cases h <;> exact .inr (.inr (.inl ⟨_, _, _, hq, rfl⟩))
    · unfold busWrite at h
      split at h
      · rename_i off size v hl
        split at h
        · rename_i h0
          subst h0
          obtain rfl : size = 4 := by simpa [legalAccess] using hl
          unfold dispatchWord at h
          split at h
          · exact .inr (.inr (.inr (.inr ⟨_, _, _, hq, ‹_›, h⟩)))
          · rename_i why hd
            unfold rejectWord at h
            split at h
            · cases h
              exact .inr (.inr (.inl ⟨_, _, _, hq, rfl⟩))
            · cases h
              exact .inr (.inr (.inr (.inl ⟨_, _, hq, ⟨why, hd⟩, ‹_›, rfl⟩)))
        · cases h
          exact .inr (.inr (.inl ⟨_, _, _, hq, rfl⟩))
      · cases h
        exact .inr (.inr (.inl ⟨_, _, _, hq, rfl⟩))
    · cases h
      exact .inr (.inl ⟨_, hq, rfl⟩)

end Sys2Proof.Laws
end

