-- ==== Sys2Proof/Laws/Run.lean ====
section
/-! SUPPORT. Sequences of commands: they always answer, they split at any place, and neither the
host's actions nor the bus's last response has a part in what a command does. -/

namespace Sys2Proof.Laws

open Sys2Proof.Machine

/-- What a command does is independent of what the host will do and of the last response. -/
theorem exec_host {c : Instr} {s t : State} (q : List HostAction) (r : Option BusResponse)
    (h : exec c s = .next t) :
    exec c { s with hostQueue := q, busResponse := r }
      = .next { t with hostQueue := q, busResponse := r } := by
  rw [exec_eq_perform] at h ⊢
  unfold perform at *
  dsimp only at *
  split_ifs at *
  · cases h; rfl
  · cases h; rfl
  · cases c <;> simp only [effect, countBody, buildBody, packBody, finishBody] at * <;>
      first
        | (cases h; rfl)
        | (split_ifs at * <;> (cases h; rfl))

theorem runCommands_cons {c : Instr} {cs : List Instr} {s t : State} (h : exec c s = .next t) :
    runCommands (c :: cs) s = runCommands cs t := by
  simp only [runCommands, h]

theorem runCommands_answers (cs : List Instr) (s : State) : ∃ t, runCommands cs s = .next t := by
  induction cs generalizing s with
  | nil => exact ⟨s, rfl⟩
  | cons c cs ih =>
    obtain ⟨t, ht⟩ := exec_answers c s
    rw [runCommands_cons ht]
    exact ih t

theorem runCommands_append {a b : List Instr} {s t : State} (h : runCommands a s = .next t) :
    runCommands (a ++ b) s = runCommands b t := by
  induction a generalizing s with
  | nil => cases h; rfl
  | cons c a ih =>
    obtain ⟨u, hu⟩ := exec_answers c s
    rw [List.cons_append, runCommands_cons hu]
    rw [runCommands_cons hu] at h
    exact ih h

theorem runCommands_host {cs : List Instr} {s t : State} (q : List HostAction)
    (r : Option BusResponse) (h : runCommands cs s = .next t) :
    runCommands cs { s with hostQueue := q, busResponse := r }
      = .next { t with hostQueue := q, busResponse := r } := by
  induction cs generalizing s with
  | nil => cases h; rfl
  | cons c cs ih =>
    obtain ⟨u, hu⟩ := exec_answers c s
    rw [runCommands_cons hu] at h
    rw [runCommands_cons (exec_host q r hu)]
    exact ih h

end Sys2Proof.Laws
end

