-- ==== Sys2Proof/Tests/Slice0.lean ====
section
/-! SUPPORT. Tests: ill-formed words refused, every command's word written bit by bit from spec/30_encoding.md, small
step tests whose expected values come from spec/95_test_vectors.md, and for every claim with hypotheses a state and
operands that meet them. -/

namespace Sys2Proof.Tests

open Sys2Proof.Machine Sys2Proof.Laws

/-- The state an outcome answers, or the fallback where it stops. -/
def landed (o : Host.Outcome State Fault Refusal) (s : State) : State :=
  match o with
  | .next t => t
  | .fault _ => s
  | .refused _ => s

/-- The state after the host has written these words to CMD, in order. -/
def afterWords : List Nat → State → State
  | [], s => s
  | w :: ws, s => afterWords ws (landed (step (s.withFetchWord 32 w)) s)

/-! ### Well-formedness, one ill-formed word per check (R95) -/

theorem test_rsvd_check_refuses : rsvdClear 0x00010100#32 = false ∧ wordWellFormed 0x00010100#32 = false := by decide
theorem test_op_check_refuses : opDefined 0x00000700#32 = false ∧ wordWellFormed 0x00000700#32 = false := by decide
theorem test_data_check_refuses : dataAllowed 0x00000301#32 = false ∧ wordWellFormed 0x00000301#32 = false := by decide
theorem test_wellformed_accepts : wordWellFormed 0x000002FF#32 = true ∧ wordWellFormed 0x00000600#32 = true := by decide

/-! ### Decoding, each word written bit by bit: RSVD, OP, DATA (R91, R92) -/

theorem test_decode_nop : decode 0b00000000000000000000000000000000#32 = .command .nop := by decide
theorem test_decode_start : decode 0b00000000000000000000000100000000#32 = .command .start := by decide
theorem test_decode_count : decode 0b00000000000000000000001001000001#32 = .command (.count 0x41#8) := by decide
theorem test_decode_build : decode 0b00000000000000000000001100000000#32 = .command .build := by decide
theorem test_decode_pack : decode 0b00000000000000000000010010000010#32 = .command (.pack 0x82#8) := by decide
theorem test_decode_finish : decode 0b00000000000000000000010100000000#32 = .command .finish := by decide
theorem test_decode_ioerr : decode 0b00000000000000000000011000000000#32 = .command .ioerr := by decide
theorem test_decode_rsvd : decode 0b10000000000000000000001001000001#32 = .illegal .rsvdNonzero := by decide
theorem test_decode_op : decode 0b00000000000000001111111100000000#32 = .illegal .opReserved := by decide
theorem test_decode_data : decode 0b00000000000000000000010100000001#32 = .illegal .dataNonzero := by decide
theorem test_table_word : decodeTableWord 32 0x000004FF = some (.pack 0xFF#8) ∧ decodeTableWord 32 0x700 = none := by
  decide

/-! ### Assembler (R96, R97) -/

theorem test_assemble_count_forms :
    assembleLine ['C', 'O', 'U', 'N', 'T', ' ', '0', 'x', '4', '1'] = some [.count 0x41#8] ∧
    assembleLine ['C', 'O', 'U', 'N', 'T', ' ', '6', '5'] = some [.count 0x41#8] ∧
    assembleLine ['C', 'O', 'U', 'N', 'T', ' ', '\'', 'A', '\'', ' ', ';', 'x'] = some [.count 0x41#8] := by
  decide +kernel
theorem test_assemble_encode : assembleLine ['E', 'N', 'C', 'O', 'D', 'E', ' ', '[', '9', ',', '8', ']'] =
    some [.start, .count 9, .count 8, .build, .pack 9, .pack 8, .finish] := by decide +kernel

/-! ### One step of each command, with the values of spec/95_test_vectors.md -/

/-- COUNTING, nothing counted. -/
def counting : State := { State.reset with phase := .counting }

/-- COUNTING, after b was counted n times and c m times. -/
def counted (b : Byte) (n : Nat) (c : Byte) (m : Nat) : State :=
  { counting with
    freq := writeAt (writeAt (fillTable 0) b (BitVec.ofNat 32 n)) c (BitVec.ofNat 32 m)
    origSize := BitVec.ofNat 32 (n + m) }

/-- PACKING, after BUILD on a run that counted 0x61 and 0x62 once each: the tree, the codes and the totals of V34. -/
def packing : State :=
  { counted 0x61#8 1 0x62#8 1 with
    phase := .packing
    tree := [.leaf 0x61#8 1, .leaf 0x62#8 1, .internal 2 0 (some 1)]
    code := writeAt (writeAt (fillTable []) 0x61#8 [false]) 0x62#8 [true]
    remain := (counted 0x61#8 1 0x62#8 1).freq
    totalBits := 2, padding := 6, payloadBytes := 1, headerLen := 8
    out := [0x01, 0x61, 0x01, 0x30, 0x62, 0x01, 0x31, 0x06] }

/-- PACKING, with both bytes presented again. -/
def packed : State := { packing with remain := fillTable 0, packedIn := 2, bitBuf := [false, true] }

/-- ERROR, after IOERR in IDLE (V5). -/
def failed : State := landed (exec .ioerr State.reset) State.reset

theorem test_nop : exec .nop packing = .next packing := rfl
/-- V14: START leaves ERROR and clears the record. -/
theorem test_start : (landed (exec .start failed) failed).phase = .counting ∧
    (landed (exec .start failed) failed).errCode = .noError := by decide +kernel
/-- V29: ORIG_SIZE reaches 2^32 - 1. -/
theorem test_count_last : (landed (exec (.count 0x42#8) (counted 0x41#8 0xFFFFFFFE 0x43#8 0)) counting).origSize =
    0xFFFFFFFF#32 := by decide +kernel
/-- V30: the next COUNT overflows and counts nothing. -/
theorem test_count_overflow :
    (landed (exec (.count 0x41#8) (counted 0x41#8 0xFFFFFFFF 0x43#8 0)) counting).errCode = .countOverflow ∧
    readAt (landed (exec (.count 0x41#8) (counted 0x41#8 0xFFFFFFFF 0x43#8 0)) counting).freq 0x41#8 = 0xFFFFFFFF#32 := by
  decide +kernel
/-- V31: BUILD of an empty input. -/
theorem test_build_empty : (landed (exec .build counting) counting).errCode = .emptyInput := by decide +kernel
/-- V36: the tree and the header of AAABBC. -/
theorem test_build : (fun t : State => (t.tree, t.out)) (landed (exec .build
      { counted 0x41#8 3 0x42#8 2 with
        freq := writeAt (counted 0x41#8 3 0x42#8 2).freq 0x43#8 1, origSize := 6 }) counting) =
    ([.leaf 0x41#8 3, .leaf 0x42#8 2, .leaf 0x43#8 1, .internal 3 2 (some 1), .internal 6 0 (some 3)],
     [0x02, 0x41, 0x01, 0x30, 0x42, 0x02, 0x31, 0x31, 0x43, 0x02, 0x31, 0x30, 0x07]) := by decide +kernel
/-- V46: the second PACK of a byte counted once mismatches. -/
theorem test_pack_mismatch :
    (landed (exec (.pack 0x61#8) (landed (exec (.pack 0x61#8) packing) packing)) packing).errCode = .inputMismatch := by
  decide +kernel
/-- V34's code: `b` is 1, so PACK of `a`, `b` leaves the bits 0, 1. -/
theorem test_pack_bits : (fun t : State => (t.bitBuf, t.packedIn, readAt t.remain 0x61#8))
    (landed (exec (.pack 0x62#8) (landed (exec (.pack 0x61#8) packing) packing)) packing) =
    ([false, true], 2, 0) := by decide +kernel
/-- FINISH pads `ab`'s two bits 01 with six zeros: 0x40. -/
theorem test_finish_byte : (landed (exec .finish packed) packed).out =
    [0x01, 0x61, 0x01, 0x30, 0x62, 0x01, 0x31, 0x06, 0x40] := by decide +kernel
/-- V50: FINISH too early mismatches. -/
theorem test_finish_early : (landed (exec .finish packing) packing).errCode = .inputMismatch := by decide +kernel
/-- V5: STATUS, ERRINFO and ERRCMD after IOERR in IDLE. -/
theorem test_ioerr : readRegister 0x004#12 failed = 0x0000000F#32 ∧ readRegister 0x008#12 failed = 0x00000002#32 ∧
    readRegister 0x00C#12 failed = 0x00000600#32 := by decide +kernel
/-- V9: an illegal word written in COUNTING. -/
theorem test_illegal_word : readRegister 0x008#12 (afterWords [0x100, 0x001] State.reset) = 0x00000106#32 ∧
    readRegister 0x00C#12 (afterWords [0x100, 0x001] State.reset) = 0x00000001#32 := by decide +kernel

/-! ### The tables of `packing`, and the invariant in states a run reaches -/

/-- V34: TreeBuild and CodeGen on the counts of `packing`. -/
theorem packing_tree : treeBuild packing.freq = (packing.tree, 2) := by decide +kernel
theorem packing_code : codeOf packing.freq = packing.code := by
  rw [codeOf, packing_tree]
  decide +kernel
theorem packing_nsym : nsym packing.freq = 2 := by decide +kernel
theorem packing_sums : sumBytes (fun b => (readAt packing.freq b).toNat) = 2 ∧
    totalCodeBits packing.freq packing.code = 2 ∧ sumBytes (codeLen packing.code) = 2 := by decide +kernel
theorem packing_domain : (∀ b, readAt packing.code b ≠ [] ↔ readAt packing.freq b ≠ 0) ∧
    ∀ b, codeLen packing.code b ≤ 255 := by decide +kernel
theorem packed_remain (b : Byte) : readAt packed.remain b = 0 := readAt_fillTable 0 b
theorem packedOf_packing : packedOf packing = fun _ => 0 := funext fun _ => Nat.sub_self _
theorem packedOf_packed : packedOf packed = fun b => (readAt packing.freq b).toNat :=
  funext fun b => by rw [packedOf, packed_remain b]; exact Nat.sub_zero _

/-- The invariant where a byte has been counted. -/
theorem witness_inv_counting : Inv (counted 0x61#8 1 0x62#8 1) where
  counted := packing_sums.1
  buffer := by decide
  fresh _ := ⟨fun b => by simp [counted, counting, State.reset], fun b => by simp [counted, counting, State.reset], rfl,
    ⟨rfl, rfl, rfl, rfl, rfl⟩, rfl⟩
  built h := by simp [stage, counted, counting] at h
  bits h := by simp [stage, counted, counting] at h
  finished h := by simp [stage, counted, counting] at h
  failed h := by simp [counted, counting] at h
  clean _ := ⟨rfl, rfl, rfl⟩

/-- The invariant right after BUILD. -/
theorem witness_inv_packing : Inv packing where
  counted := packing_sums.1
  buffer := by decide
  fresh h := by simp [stage, packing] at h
  built _ :=
    { symbols := packing_nsym ▸ by decide
      tree := by rw [packing_tree]
      code := packing_code.symm
      domain := packing_domain.1
      lengths := packing_domain.2
      total := packing_sums.2.1.symm
      wholeBytes := by decide
      header := by rw [packing_nsym, packing_sums.2.2]; decide
      owed := fun _ => le_rfl
      packed := by rw [packedOf_packing, sumBytes_zero]; rfl }
  bits _ := by simp only [packedOf_packing, Nat.zero_mul, sumBytes_zero]; rfl
  finished h := by simp [stage, packing] at h
  failed h := by simp [packing] at h
  clean _ := ⟨rfl, rfl, rfl⟩

/-- The invariant at the end of pass 2, with REMAIN all 0. -/
theorem witness_inv_packed : Inv packed ∧ packed.phase = .packing ∧ packed.packedIn = packed.origSize where
  left :=
    { counted := packing_sums.1
      buffer := by decide
      fresh := fun h => absurd h (by decide)
      built := fun _ =>
        { symbols := packing_nsym ▸ by decide
          tree := by rw [show packed.freq = packing.freq from rfl, packing_tree]; rfl
          code := packing_code.symm
          domain := packing_domain.1
          lengths := packing_domain.2
          total := packing_sums.2.1.symm
          wholeBytes := by decide
          header := by
            rw [show nsym packed.freq = 2 from packing_nsym, show sumBytes (codeLen packed.code) = 2 from packing_sums.2.2]
            decide
          owed := fun b => by rw [packed_remain b]; exact Nat.zero_le _
          packed := by rw [packedOf_packed, packing_sums.1]; rfl }
      bits := fun _ => by
        rw [show sumBytes (fun b => packedOf packed b * codeLen packed.code b) = 2 by
          simp only [packedOf_packed]
          exact packing_sums.2.1]
        rfl
      finished := fun h => absurd h (by decide)
      failed := fun h => absurd h (by decide)
      clean := fun _ => ⟨rfl, rfl, rfl⟩ }
  right := ⟨rfl, rfl⟩

/-! ### For every claim with hypotheses, a state and operands that meet them -/

theorem witness_OpcodeMapMatchesDecode :
    ∃ r ∈ opcodeMap, r.op = 0x02#8 ∧ 0x000002FF#32 &&& r.mask = r.pattern ∧
      decode 0x000002FF#32 = .command (.count 0xFF#8) := by decide
/-- Each clause at the ends of its range: RSVD, OP 0x07 and 0xFF, DATA; and a state outside ERROR and one in it. -/
theorem witness_IllegalWordsRaiseIllegalCommand :
    decode 0x00010000#32 = .illegal .rsvdNonzero ∧ decode 0x80000000#32 = .illegal .rsvdNonzero ∧
    decode 0x00000700#32 = .illegal .opReserved ∧ decode 0x0000FF00#32 = .illegal .opReserved ∧
    decode 0x00000001#32 = .illegal .dataNonzero ∧ decode 0x000006FF#32 = .illegal .dataNonzero ∧
    packing.phase ≠ .error ∧ failed.phase = .error := by decide
theorem witness_StepRunsDecodedCommand :
    ({ packing with hostQueue := [.write 0x000#12 4 0x00000461#32, .reset] } : State).hostQueue =
      [.write 0x000#12 4 0x00000461#32, .reset] ∧ decode 0x00000461#32 = .command (.pack 0x61#8) := by decide
theorem witness_StepWaitsWithNothingPending : packing.hostQueue = [] := rfl
theorem witness_BusReadReturnsRegister :
    ({ packing with hostQueue := [.read 0xFFC#12 4] } : State).hostQueue = [.read 0xFFC#12 4] ∧
    (0xFFC#12).toNat % 4 = 0 := by decide
/-- A 4-byte access at offset 1, and a 2-byte access at offset 0; a read and a write. -/
theorem witness_IllegalAccessIsBusError :
    (4 ≠ 4 ∨ (0x001#12).toNat % 4 ≠ 0) ∧ (2 ≠ 4 ∨ (0x000#12).toNat % 4 ≠ 0) ∧
    ({ packing with hostQueue := [.read 0x001#12 4] } : State).hostQueue = [.read 0x001#12 4] ∧
    ({ packing with hostQueue := [.write 0x000#12 2 0#32] } : State).hostQueue = [.write 0x000#12 2 0#32] := by decide
/-- Offset 0, the register after it and the last offset. -/
theorem witness_OnlyCmdWritesHaveEffect :
    ({ packing with hostQueue := [.write 0x000#12 4 0#32] } : State).hostQueue = [.write 0x000#12 4 0#32] ∧
    ({ packing with hostQueue := [.write 0x004#12 4 0#32] } : State).hostQueue = [.write 0x004#12 4 0#32] ∧
    ({ packing with hostQueue := [.write 0xFFC#12 4 0#32] } : State).hostQueue = [.write 0xFFC#12 4 0#32] ∧
    (0x000#12).toNat % 4 = 0 ∧ (0x004#12).toNat % 4 = 0 ∧ (0xFFC#12).toNat % 4 = 0 := by decide
/-- Ignored in ERROR; not legal in the phase; illegal as a word; performed; START in ERROR. -/
theorem witness_DispatchFollowsPhaseTable :
    (failed.phase = .error ∧ decode 0x00000300#32 ≠ .command .start) ∧
    (decode 0x00000241#32 = .command (.count 0x41#8) ∧ packing.phase ≠ .error ∧
      legal (.count 0x41#8) packing.phase = false) ∧
    decode 0x00000700#32 = .illegal .opReserved ∧
    (packing.phase ≠ .error ∧ legal .finish packing.phase = true) := by decide
theorem witness_HostWritesArePerformedInOrder :
    [Instr.start, .count 0x41#8] ≠ [] ∧
    ({ packing with hostQueue := [commandWrite .start, commandWrite (.count 0x41#8), .reset] } : State).hostQueue =
      [Instr.start, .count 0x41#8].map commandWrite ++ [.reset] := by decide
theorem witness_ResetAndStartValues :
    ({ packing with hostQueue := [.reset] } : State).hostQueue = [.reset] := rfl
theorem witness_StatusFields : packed.bitBuf.length ≤ 7 := by decide
theorem witness_ErrorRegistersReadBack :
    packing.phase ≠ .error ∧ (∃ t, dispatchWord 0x00000700#32 packing = .next t ∧ t.phase = .error) ∧
    Inv packing := ⟨by decide, ⟨_, rfl, rfl⟩, witness_inv_packing⟩
/-- Before BUILD and after it. -/
theorem witness_WindowsReadTables :
    (Inv (counted 0x61#8 1 0x62#8 1) ∧ stage (counted 0x61#8 1 0x62#8 1) = .counting) ∧ Inv packing :=
  ⟨⟨witness_inv_counting, rfl⟩, witness_inv_packing⟩
/-- The ends of both ranges. -/
theorem witness_ReservedReadsZero :
    (∀ off ∈ [0x038#12, 0x3FC#12, 0xC00#12, 0xFFC#12], off.toNat % 4 = 0 ∧
      ((0x038 ≤ off.toNat ∧ off.toNat ≤ 0x3FC) ∨ (0xC00 ≤ off.toNat ∧ off.toNat ≤ 0xFFC))) ∧
    ({ packing with hostQueue := [.write 0xFFC#12 4 5#32] } : State).hostQueue = [.write 0xFFC#12 4 5#32] :=
  ⟨by decide, rfl⟩
theorem witness_IoerrRaisesIoError : packing.phase ≠ .error ∧ failed.phase = .error := by decide
/-- One below the limit, at the limit, in another phase. -/
theorem witness_CountAddsOne :
    ((counted 0x41#8 0xFFFFFFFE 0x43#8 0).phase = .counting ∧
      (counted 0x41#8 0xFFFFFFFE 0x43#8 0).origSize ≠ 0xFFFFFFFF#32) ∧
    ((counted 0x41#8 0xFFFFFFFF 0x43#8 0).phase = .counting ∧
      (counted 0x41#8 0xFFFFFFFF 0x43#8 0).origSize = 0xFFFFFFFF#32) ∧
    packing.phase ≠ .counting ∧ packing.phase ≠ .error := by decide
theorem witness_CountNeverWraps : Inv (counted 0x61#8 1 0x62#8 1) ∧ (counted 0x61#8 1 0x62#8 1).phase = .counting ∧
    (counted 0x61#8 1 0x62#8 1).origSize ≠ 0xFFFFFFFF#32 := ⟨witness_inv_counting, rfl, by decide⟩
theorem witness_BuildBuildsCodeAndHeader :
    (counted 0x61#8 1 0x62#8 1).phase = .counting ∧ nsym (counted 0x61#8 1 0x62#8 1).freq ≠ 0 :=
  ⟨rfl, by rw [show nsym (counted 0x61#8 1 0x62#8 1).freq = 2 from packing_nsym]; decide⟩
/-- BUILD of an empty input, and BUILD out of COUNTING. -/
theorem witness_FailedBuildChangesNothingElse :
    (counting.phase = .counting ∧ nsym counting.freq = 0 ∧
      ∃ t, exec .build counting = .next t ∧ t.phase = .error) ∧
    packing.phase ≠ .error ∧ packing.phase ≠ .counting := by
  have h : nsym counting.freq = 0 := (nsym_eq_zero_iff _).2 fun b => readAt_fillTable 0 b
  have hx := (exec_eq_perform .build counting).trans
    (perform_error (by decide) (by decide) (buildBody_error.2 (.inl ⟨h, rfl⟩)))
  exact ⟨⟨rfl, h, _, hx, raiseError_phase _ _ _⟩, by decide, by decide⟩
theorem witness_FormatOverflowNeverRaised :
    readAt packing.freq 0x61#8 ≠ 0 ∧ packing.errCode ≠ .formatOverflow ∧ ∃ t, exec .ioerr packing = .next t :=
  ⟨by decide +kernel, by decide, exec_answers _ _⟩
/-- A byte value owed, one not owed, another phase. -/
theorem witness_PackPushesCode :
    (packing.phase = .packing ∧ readAt packing.remain 0x61#8 ≠ 0) ∧ readAt packing.remain 0x63#8 = 0 ∧
    (counting.phase ≠ .packing ∧ counting.phase ≠ .error) := by decide +kernel
/-- At the end of pass 2, before it, and in another phase. -/
theorem witness_FinishPadsLastByte :
    (Inv packed ∧ packed.phase = .packing ∧ packed.packedIn = packed.origSize) ∧
    (packing.phase = .packing ∧ packing.packedIn ≠ packing.origSize) ∧
    (counting.phase ≠ .packing ∧ counting.phase ≠ .error) :=
  ⟨witness_inv_packed, by decide, by decide⟩
theorem witness_PackEmitsAtMostSixBytes :
    Inv packing ∧ packing.phase = .packing ∧ ∃ t, exec (.pack 0x61#8) packing = .next t :=
  ⟨witness_inv_packing, rfl, exec_answers _ _⟩
theorem witness_ErrorEntryIsAtomic :
    packing.phase ≠ .error ∧ ∃ t, dispatchWord 0x00000500#32 packing = .next t ∧ t.phase = .error :=
  ⟨by decide, _, rfl, rfl⟩
/-- Both ways out of ERROR. -/
theorem witness_ErrorLeftOnlyByStartOrReset :
    ∀ a ∈ [HostAction.reset, .write 0x000#12 4 0x00000100#32], failed.phase = .error ∧
      ∃ t, step { failed with hostQueue := [a] } = .next t ∧ t.phase ≠ .error := by
  simp only [List.forall_mem_cons, List.not_mem_nil, false_implies, implies_true, and_true]
  exact ⟨⟨rfl, _, rfl, by decide⟩, rfl, _, rfl, by decide⟩
theorem witness_ErrorRecordKept : ErrorRecord failed ∧ failed.errCode ≠ .noError ∧ ∃ t, step failed = .next t :=
  ⟨rfl, by decide, _, rfl⟩
/-- FINISH of `packed` emits a byte. -/
theorem witness_OutIsAppendOnly :
    ∃ t, step { packed with hostQueue := [.write 0x000#12 4 0x00000500#32] } = .next t ∧ t.out = packed.out ++ [0x40] :=
  ⟨_, rfl, by decide⟩
theorem witness_TablesFrozenAfterBuild :
    packing.phase ≠ .idle ∧ packing.phase ≠ .counting ∧
    (∃ t, step { packing with hostQueue := [.write 0x000#12 4 0x00000461#32] } = .next t) ∧
    (∀ rest, [HostAction.write 0x000#12 4 0x00000461#32] ≠ .reset :: rest) ∧
    ∀ rest, [HostAction.write 0x000#12 4 0x00000461#32] ≠ .write 0x000#12 4 0x00000100#32 :: rest :=
  ⟨by decide, by decide, ⟨_, rfl⟩, by simp, by simp⟩
theorem witness_InvariantKeptByEveryStep : Inv packing ∧ ∃ t, step packing = .next t := ⟨witness_inv_packing, _, rfl⟩
theorem witness_ExtractionTakesLeastKey : ([⟨2, 0⟩, ⟨1, 1⟩, ⟨1, 2⟩].map Key.id).Nodup := by decide
/-- Two byte values: a merged node, TREE, the codes, a leaf's depth, and the bound on the counts. -/
theorem witness_two_symbols :
    2 ≤ nsym packing.freq ∧ (treeBuild packing.freq).1[2]? = some (.internal 2 0 (some 1)) ∧
    readAt packing.freq 0x61#8 ≠ 0 ∧ sumBytes (fun b => (readAt packing.freq b).toNat) ≤ 2 ^ 32 - 1 :=
  ⟨packing_nsym ▸ le_rfl, by rw [packing_tree]; rfl, by decide +kernel, packing_sums.1.trans_le (by decide)⟩
/-- The two branches of `packing`'s tree, and a state BUILD runs in. -/
theorem witness_CodesAreRootToLeafPaths :
    readAt packing.freq 0x61#8 ≠ 0 ∧ readAt packing.freq 0x63#8 = 0 ∧
    followPath (treeBuild packing.freq).1 (treeBuild packing.freq).2 [false] = some (.leaf 0x61#8 1) ∧
    followPath (treeBuild packing.freq).1 (treeBuild packing.freq).2 [true] = some (.leaf 0x62#8 1) ∧
    (counted 0x61#8 1 0x62#8 1).phase = .counting ∧ nsym (counted 0x61#8 1 0x62#8 1).freq ≠ 0 := by
  refine ⟨by decide +kernel, by decide +kernel, ?_, ?_, rfl, by decide +kernel⟩ <;> rw [packing_tree] <;> decide
/-- And another prefix code over them. -/
theorem witness_CodeIsOptimal :
    2 ≤ nsym packing.freq ∧ sumBytes (fun b => (readAt packing.freq b).toNat) ≤ 2 ^ 32 - 1 ∧
    PrefixFree packing.freq (writeAt (writeAt (fillTable []) 0x61#8 [true, false]) 0x62#8 [true, true, false]) := by
  refine ⟨witness_two_symbols.1, witness_two_symbols.2.2.2, ?_⟩
  unfold PrefixFree
  intro a b ha hb hab
  have hs : ∀ c : Byte, readAt packing.freq c ≠ 0 → c = 0x61#8 ∨ c = 0x62#8 := by
    intro c hc
    by_contra h
    simp only [not_or] at h
    simp [packing, counted, h.1, h.2] at hc
  rcases hs a ha with rfl | rfl <;> rcases hs b hb with rfl | rfl <;> simp at hab ⊢
/-- One byte value. -/
theorem witness_one_symbol : nsym (counted 0x61#8 0 0x62#8 5).freq = 1 ∧
    readAt (counted 0x61#8 0 0x62#8 5).freq 0x62#8 ≠ 0 := by decide +kernel
theorem witness_HeaderAfterBuild : (counted 0x61#8 1 0x62#8 1).phase = .counting ∧
    ∃ t, exec .build (counted 0x61#8 1 0x62#8 1) = .next t ∧ t.phase = .packing := by
  refine ⟨rfl, _, (exec_eq_perform _ _).trans
    (perform_ok (.inl (by decide)) (by decide) (buildBody_ok.2 ⟨?_, ?_, ?_, rfl⟩)), rfl⟩
  · rw [show nsym (counted 0x61#8 1 0x62#8 1).freq = 2 from packing_nsym]; decide
  · rw [show nsym (counted 0x61#8 1 0x62#8 1).freq = 2 from packing_nsym]; decide
  · rw [show codeOf (counted 0x61#8 1 0x62#8 1).freq = packing.code from packing_code, codeTooLong, List.any_eq_false]
    exact fun b _ => by simp [Config.maxCodeLen, packing_domain.2 b]
theorem witness_CountPassCountsInput : [0x61#8, 0x62#8].length < 2 ^ 32 ∧ [0x62#8, 0x61#8].Perm [0x61#8, 0x62#8] := by
  decide
theorem witness_TwoPassRunEncodes : [0x61#8, 0x62#8] ≠ [] ∧ [0x62#8, 0x61#8].Perm [0x61#8, 0x62#8] := by decide
theorem witness_MismatchedPassTwoIsDetected : ¬ [0x61#8, 0x61#8].Perm [0x61#8, 0x62#8] ∧
    ¬ [0x61#8].Perm [0x61#8, 0x62#8] := by decide

end Sys2Proof.Tests
end

namespace Sys2Proof.Laws

open Sys2Proof.Machine

/-! SUPPORT. The packed fields of STATUS and ERRINFO (spec/10_state.md R35, R36). -/

section PackedFields

/-- A field that lies wholly in the high part of a concatenation, at position k of that part. -/
theorem field_of_high {v w : Nat} (hi : BitVec v) (lo : BitVec w) (k len : Nat) :
    (hi ++ lo).extractLsb' (w + k) len = hi.extractLsb' k len := by
  rw [BitVec.extractLsb'_append_eq_of_le (Nat.le_add_right w k), Nat.add_sub_cancel_left]

variable (s : State)

theorem statusWord_phase : (statusWord s).extractLsb' 0 3 = s.phase.bits :=
  BitVec.extractLsb'_append_eq_right

theorem statusWord_err : (statusWord s).extractLsb' 3 1 = flagErr s :=
  (field_of_high _ _ 0 1).trans BitVec.extractLsb'_append_eq_right

theorem statusWord_done : (statusWord s).extractLsb' 4 1 = flagDone s :=
  (field_of_high _ _ 1 1).trans <| (field_of_high _ _ 0 1).trans BitVec.extractLsb'_append_eq_right

theorem statusWord_reserved_low : (statusWord s).extractLsb' 5 3 = 0#3 :=
  (field_of_high _ _ 2 3).trans <| (field_of_high _ _ 1 3).trans <| (field_of_high _ _ 0 3).trans
    BitVec.extractLsb'_append_eq_right

theorem statusWord_bitCount : (statusWord s).extractLsb' 8 3 = bitCount s :=
  (field_of_high _ _ 5 3).trans <| (field_of_high _ _ 4 3).trans <| (field_of_high _ _ 3 3).trans <|
    (field_of_high _ _ 0 3).trans BitVec.extractLsb'_append_eq_right

theorem statusWord_reserved_high : (statusWord s).extractLsb' 11 21 = 0#21 :=
  (field_of_high _ _ 8 21).trans <| (field_of_high _ _ 7 21).trans <| (field_of_high _ _ 6 21).trans <|
    (field_of_high _ _ 3 21).trans <| (field_of_high _ _ 0 21).trans BitVec.extractLsb'_eq_self

theorem errInfoWord_errCode : (errInfoWord s).extractLsb' 0 8 = s.errCode.bits :=
  BitVec.extractLsb'_append_eq_right

theorem errInfoWord_errPhase : (errInfoWord s).extractLsb' 8 3 = s.errPhase.bits :=
  (field_of_high _ _ 0 3).trans BitVec.extractLsb'_append_eq_right

theorem errInfoWord_reserved : (errInfoWord s).extractLsb' 11 21 = 0#21 :=
  (field_of_high _ _ 3 21).trans <| (field_of_high _ _ 0 21).trans BitVec.extractLsb'_eq_self

end PackedFields

/-! SUPPORT. What each offset of the register space reads (spec/10_state.md R34, R40 to R42). -/

section RegisterReads

/-- A value below `2 ^ k` has no bit in any field at k or above. -/
theorem field_eq_zero_of_lt {n : Nat} {x : BitVec n} {k : Nat} (len : Nat) (h : x.toNat < 2 ^ k) :
    x.extractLsb' k len = 0 := by
  apply BitVec.eq_of_toNat_eq
  simp [Nat.shiftRight_eq_div_pow, Nat.div_eq_of_lt h]

variable (s : State)

@[simp] theorem readRegister_status : readRegister 0x004#12 s = statusWord s := rfl
@[simp] theorem readRegister_errInfo : readRegister 0x008#12 s = errInfoWord s := rfl
@[simp] theorem readRegister_errCmd : readRegister 0x00C#12 s = s.errCmd := rfl
@[simp] theorem readRegister_nsym : readRegister 0x014#12 s = BitVec.ofNat 32 (nsym s.freq) := rfl
@[simp] theorem readRegister_padding : readRegister 0x028#12 s = s.padding.setWidth 32 := rfl

/-- Above the named registers, bits 11 to 10 of the offset choose the FREQ window, the CODELEN window or 0. -/
theorem readRegister_above_named {off : Offset} (h : 0x038 ≤ off.toNat) :
    readRegister off s =
      if off.extractLsb' 10 2 = 1#2 then readAt s.freq (windowIndex off)
      else if off.extractLsb' 10 2 = 2#2 then (BitVec.ofNat 8 (codeLen s.code (windowIndex off))).setWidth 32
      else 0 := by
  have named : ∀ k : Offset, k.toNat < 0x038 → off ≠ k := by rintro k hk rfl; omega
  simp only [readRegister, named 0x000#12 (by decide), named 0x004#12 (by decide), named 0x008#12 (by decide),
    named 0x00C#12 (by decide), named 0x010#12 (by decide), named 0x014#12 (by decide), named 0x018#12 (by decide),
    named 0x01C#12 (by decide), named 0x020#12 (by decide), named 0x024#12 (by decide), named 0x028#12 (by decide),
    named 0x02C#12 (by decide), named 0x030#12 (by decide), named 0x034#12 (by decide), if_false]

theorem toNat_page (off : Offset) : (off.extractLsb' 10 2).toNat = off.toNat / 1024 := by
  have := off.isLt
  simp only [BitVec.extractLsb'_toNat, Nat.shiftRight_eq_div_pow]
  omega

theorem toNat_windowIndex (off : Offset) : (windowIndex off).toNat = off.toNat / 4 % 256 := by
  simp only [windowIndex, BitVec.extractLsb'_toNat, Nat.shiftRight_eq_div_pow, Nat.reducePow]

/-- The offset of entry b of a window that begins at `base`. -/
theorem toNat_windowOffset {base : Nat} (hb : base ≤ 0xC00) (b : Byte) :
    (BitVec.ofNat 12 (base + 4 * b.toNat)).toNat = base + 4 * b.toNat := by
  have := b.isLt
  rw [BitVec.toNat_ofNat, Nat.mod_eq_of_lt (by omega)]

theorem page_windowOffset {base : Nat} (hb : base ≤ 0xC00) (ha : base % 1024 = 0) (b : Byte) :
    (BitVec.ofNat 12 (base + 4 * b.toNat)).extractLsb' 10 2 = BitVec.ofNat 2 (base / 1024) := by
  have := b.isLt
  apply BitVec.eq_of_toNat_eq
  rw [toNat_page, toNat_windowOffset hb, BitVec.toNat_ofNat]
  omega

theorem windowIndex_windowOffset {base : Nat} (hb : base ≤ 0xC00) (ha : base % 1024 = 0) (b : Byte) :
    windowIndex (BitVec.ofNat 12 (base + 4 * b.toNat)) = b := by
  have := b.isLt
  apply BitVec.eq_of_toNat_eq
  rw [toNat_windowIndex, toNat_windowOffset hb]
  omega

/-- R40: the FREQ window. -/
theorem readRegister_freqWindow (b : Byte) :
    readRegister (BitVec.ofNat 12 (0x400 + 4 * b.toNat)) s = readAt s.freq b := by
  have hoff := toNat_windowOffset (base := 0x400) (by decide) b
  have hpage := page_windowOffset (base := 0x400) (by decide) (by decide) b
  rw [readRegister_above_named s (by omega), if_pos hpage, windowIndex_windowOffset (by decide) (by decide)]

/-- R41: the CODELEN window. -/
theorem readRegister_codeLenWindow (b : Byte) :
    readRegister (BitVec.ofNat 12 (0x800 + 4 * b.toNat)) s = (BitVec.ofNat 8 (codeLen s.code b)).setWidth 32 := by
  have hoff := toNat_windowOffset (base := 0x800) (by decide) b
  have hpage := page_windowOffset (base := 0x800) (by decide) (by decide) b
  rw [readRegister_above_named s (by omega), if_neg (by rw [hpage]; decide), if_pos hpage,
    windowIndex_windowOffset (by decide) (by decide)]

/-- R41: bits 31 to 8 of a CODELEN entry are 0. -/
theorem readRegister_codeLenWindow_high (b : Byte) :
    (readRegister (BitVec.ofNat 12 (0x800 + 4 * b.toNat)) s).extractLsb' 8 24 = 0#24 := by
  have := (BitVec.ofNat 8 (codeLen s.code b)).isLt
  rw [readRegister_codeLenWindow]
  exact field_eq_zero_of_lt 24 (by rw [BitVec.toNat_setWidth]; omega)

/-- R42: the two reserved ranges. -/
theorem readRegister_reserved {off : Offset}
    (h : (0x038 ≤ off.toNat ∧ off.toNat ≤ 0x3FF) ∨ 0xC00 ≤ off.toNat) : readRegister off s = 0 := by
  have := off.isLt
  have outside : ∀ p : BitVec 2, p.toNat = 1 ∨ p.toNat = 2 → off.extractLsb' 10 2 ≠ p := by
    rintro p hp rfl
    rw [toNat_page] at hp
    omega
  rw [readRegister_above_named s (by omega), if_neg (outside 1#2 (.inl rfl)), if_neg (outside 2#2 (.inr rfl))]

end RegisterReads

/-! SUPPORT. Decoding, then what a dispatched word and a host action do (spec/30_encoding.md R94,
spec/40_command_control.md R120, spec/20_memory.md R63). -/

section EncodeOfDecode

/-- R91, R92: the fields of every command's word. -/
theorem encode_fields : ∀ c : Instr, Fields.Statement c
  | .nop => Fields.nop
  | .start => Fields.start
  | .count d => Fields.count d
  | .build => Fields.build
  | .pack d => Fields.pack d
  | .finish => Fields.finish
  | .ioerr => Fields.ioerr

/-- R94: a word that decodes to a command has that command's fields. -/
theorem decode_fields {w : Word} {c : Instr} (h : decode w = .command c) :
    fieldRsvd w = 0 ∧ fieldOp w = opcodeOf c ∧ fieldData w = (operand c).getD 0 := by
  unfold decode at h
  split_ifs at h <;> cases h <;> simp_all [opcodeOf, operand]

theorem word_eq_of_fields {w w' : Word} (hr : fieldRsvd w = fieldRsvd w') (ho : fieldOp w = fieldOp w')
    (hd : fieldData w = fieldData w') : w = w' := by
  apply BitVec.eq_of_toNat_eq
  rw [word_of_fields w, word_of_fields w', hr, ho, hd]

/-- A word that decodes to a command is that command's encoding. -/
theorem encode_of_decode {w : Word} {c : Instr} (h : decode w = .command c) : encode c = w := by
  obtain ⟨hr, ho, hd⟩ := decode_fields h
  obtain ⟨hr', ho', hd'⟩ := encode_fields c
  exact word_eq_of_fields (hr'.trans hr.symm) (ho'.trans ho.symm) (hd'.trans hd.symm)

end EncodeOfDecode

section DispatchWord
variable {w : Word} {s t : State}

theorem dispatchWord_command {c : Instr} (h : decode w = .command c) : dispatchWord w s = exec c s := by
  simp only [dispatchWord, h]

theorem dispatchWord_illegal {why : Illegal} (h : decode w = .illegal why) : dispatchWord w s = rejectWord w s := by
  simp only [dispatchWord, h]

/-- R301: a word that puts the run into ERROR does so by the error entry, with that word and a code other than NONE. -/
theorem dispatchWord_enters_error (hs : s.phase ≠ .error) (h : dispatchWord w s = .next t) (ht : t.phase = .error) :
    ∃ code, code ≠ .noError ∧ t = raiseError code w s := by
  cases hd : decode w with
  | illegal why =>
    rw [dispatchWord_illegal hd, rejectWord, if_neg hs] at h
    cases h
    exact ⟨.illegalCommand, by decide, rfl⟩
  | command c =>
    rw [dispatchWord_command hd] at h
    rcases exec_cases h with ⟨he, -, -⟩ | ⟨code, hcode, -, hraise, -⟩ | ⟨-, hok, -⟩
    · exact absurd he hs
    · exact ⟨code, hcode, encode_of_decode hd ▸ hraise⟩
    · exact absurd ht (effect_ok_phase hok hs)

end DispatchWord

section HostActions
variable {s : State} {rest : List HostAction}

theorem step_reset (h : s.hostQueue = .reset :: rest) : step s = .next (resetBlock { s with hostQueue := rest }) := by
  simp only [step, takeAction, h, performAction]

/-- R63: a legal write is accepted, and has a further effect only at CMD. -/
theorem step_write {off : Offset} {value : Word} (h : s.hostQueue = .write off 4 value :: rest)
    (ha : off.toNat % 4 = 0) :
    step s = if off = 0x000#12 then dispatchWord value (taken rest s) else .next (taken rest s) := by
  simp [step, takeAction, h, performAction, busWrite, legalAccess, ha, respond, taken]

end HostActions

/-! SUPPORT. The states reset and START leave, and what the invariant says of CODELEN (spec/10_state.md R43, R44). -/

section RunClearedStates
variable (s : State)

theorem exec_start : exec .start s = .next (startRun s) :=
  (exec_eq_perform _ _).trans (perform_ok (.inr rfl) rfl rfl)

theorem runCleared_startRun : RunCleared (startRun s) := by
  constructor <;> simp

theorem runCleared_resetBlock : RunCleared (resetBlock s) := by
  constructor <;> simp

/-- The reset state is one that reset leaves. -/
theorem runCleared_reset : RunCleared State.reset := runCleared_resetBlock State.reset

theorem legal_idle (c : Instr) : legal c .idle = true ↔ c = .nop ∨ c = .start ∨ c = .ioerr := by
  cases c <;> simp [legal]

end RunClearedStates

section CodeLengths
variable {s : State}

/-- Under the invariant the phase a run had reached is never ERROR. -/
theorem stage_ne_error (h : Inv s) : stage s ≠ .error := by
  unfold stage
  split
  · exact (h.failed ‹_›).2
  · assumption

/-- R41: every code length fits the 8 bits of a CODELEN entry. -/
theorem codeLen_le (h : Inv s) (b : Byte) : codeLen s.code b ≤ 255 := by
  have unbuilt (hf : Fresh s) : codeLen s.code b ≤ 255 := by simp [codeLen, hf.code b]
  cases hst : stage s with
  | idle => exact unbuilt (h.fresh (.inl hst))
  | counting => exact unbuilt (h.fresh (.inr hst))
  | packing => exact (h.built (.inl hst)).lengths b
  | done => exact (h.built (.inr hst)).lengths b
  | error => exact absurd hst (stage_ne_error h)

end CodeLengths

/-! The statements of spec/10_state.md about reset and the register map. -/

section Settled

/-- Settles O14: reset and START leave the named states `resetBlock` and `startRun`, both cleared. -/
theorem resetAndStartValues : Obligations.ResetAndStartValues :=
  ⟨fun _ _ hq => ⟨_, step_reset hq, rfl, runCleared_resetBlock _, rfl, rfl⟩,
    fun s => ⟨_, exec_start s, rfl, runCleared_startRun s, rfl⟩,
    ⟨rfl, runCleared_reset⟩, legal_idle⟩

/-- Settles O17: each field of the concatenation R35 gives, with BITCNT exact for at most 7 buffered bits. -/
theorem statusFields : Obligations.StatusFields := by
  intro s
  rw [readRegister_status]
  refine ⟨(statusWord_phase s).trans ?_, statusWord_err s, statusWord_done s, statusWord_reserved_low s,
    fun hlen => ?_, statusWord_reserved_high s⟩
  · cases s.phase <;> rfl
  · rw [statusWord_bitCount, bitCount, BitVec.toNat_ofNat, Nat.mod_eq_of_lt (by omega)]

/-- Settles O18: only the error entry leads to ERROR, and it records the word, the phase and a code. -/
theorem errorRegistersReadBack : Obligations.ErrorRegistersReadBack := by
  constructor
  · intro w s t hs h ht
    obtain ⟨code, hcode, rfl⟩ := dispatchWord_enters_error hs h ht
    refine ⟨(errInfoWord_errCode _).trans ?_, hcode, ?_, errInfoWord_reserved _, rfl⟩
    · cases code <;> rfl
    · exact (errInfoWord_errPhase _).trans (statusWord_phase s).symm
  · intro s h hs
    obtain ⟨hcode, hphase, hcmd⟩ := h.clean hs
    exact ⟨by simp [errInfoWord, hcode, hphase, ErrCode.bits, Phase.bits], hcmd⟩

/-- Settles O19: the window offsets choose the tables' entries, and under the invariant a code length fits 8 bits. -/
theorem windowsReadTables : Obligations.WindowsReadTables := by
  refine ⟨readRegister_freqWindow, fun s b h => ⟨?_, readRegister_codeLenWindow_high s b, fun hst => ?_⟩⟩
  · have := codeLen_le h b
    rw [readRegister_codeLenWindow, BitVec.toNat_setWidth, BitVec.toNat_ofNat]
    omega
  · simp [readRegister_codeLenWindow, codeLen, (h.fresh hst).code b]

/-- Settles O20: neither reserved range is a named register or a window, and the narrow registers are zero-extended. -/
theorem reservedReadsZero : Obligations.ReservedReadsZero := by
  constructor
  · intro s off ha hr
    refine ⟨readRegister_reserved s (by omega), fun value rest hq => ?_⟩
    have hcmd : off ≠ 0x000#12 := by
      rintro rfl
      simp at hr
    rw [step_write hq ha, if_neg hcmd, taken]
  · intro s
    refine ⟨statusWord_reserved_low s, statusWord_reserved_high s, errInfoWord_reserved s,
      field_eq_zero_of_lt 23 ?_, field_eq_zero_of_lt 29 ?_, readRegister_codeLenWindow_high s⟩
    · have := nsym_le s.freq
      rw [readRegister_nsym, BitVec.toNat_ofNat]
      omega
    · have := s.padding.isLt
      rw [readRegister_padding, BitVec.toNat_setWidth]
      omega

end Settled
end Sys2Proof.Laws

namespace Sys2Proof.Laws

open Sys2Proof.Machine

/-! SUPPORT. What a bus access answers (spec/20_memory.md R61, R62); `step_write` is R63. -/

section BusAccess
variable {s : State} {off : Offset} {size : Nat} {rest : List HostAction}

theorem legalAccess_iff : legalAccess off size = true ↔ size = 4 ∧ off.toNat % 4 = 0 := by
  simp [legalAccess]

/-- R61: an access of the wrong size or alignment is not legal. -/
theorem not_legalAccess (h : size ≠ 4 ∨ off.toNat % 4 ≠ 0) : ¬ legalAccess off size = true := by
  rw [legalAccess_iff]
  omega

theorem step_busRead (h : s.hostQueue = .read off size :: rest) :
    step s = busRead off size { s with hostQueue := rest } := by
  simp only [step, takeAction, h, performAction]

theorem step_busWrite {value : Word} (h : s.hostQueue = .write off size value :: rest) :
    step s = busWrite off size value { s with hostQueue := rest } := by
  simp only [step, takeAction, h, performAction]

/-- R62: no register shows the host's pending actions. -/
@[simp] theorem readRegister_hostQueue (s : State) :
    readRegister off { s with hostQueue := rest } = readRegister off s := rfl

end BusAccess

/-! The statements of spec/20_memory.md about the register bus. -/

section SettledBus

/-- Settles O9: a legal read answers the register's value, and no register shows the queue or the answer. -/
theorem busReadReturnsRegister : Obligations.BusReadReturnsRegister := by
  intro s off rest hq ha
  refine ⟨_, ?_, rfl, fun off' => ?_⟩
  · rw [step_busRead hq, busRead, if_pos (legalAccess_iff.2 ⟨rfl, ha⟩), readRegister_hostQueue, respond_frame]
  · exact (readRegister_respond (.data (readRegister off s)) _ off').trans (readRegister_hostQueue s)

/-- Settles O10: neither a read nor a write gets past the check of R61. -/
theorem illegalAccessIsBusError : Obligations.IllegalAccessIsBusError := by
  intro s off size rest hbad
  refine ⟨fun hq => ?_, fun value hq => ?_⟩
  · rw [step_busRead hq, busRead, if_neg (not_legalAccess hbad), respond_frame]
  · rw [step_busWrite hq, busWrite, if_neg (not_legalAccess hbad), respond_frame]

/-- Settles O11: the two branches of a legal write, at CMD and at any other offset. -/
theorem onlyCmdWritesHaveEffect : Obligations.OnlyCmdWritesHaveEffect := by
  intro s off value rest hq ha
  refine ⟨fun hcmd => ?_, fun hother => ?_⟩
  · rw [step_write hq ha, if_pos hcmd, taken]
  · rw [step_write hq ha, if_neg hother, taken]

end SettledBus
end Sys2Proof.Laws

namespace Sys2Proof.Laws

open Sys2Proof.Machine

/-! SUPPORT. The decoder by the fields of the word (spec/30_encoding.md R94, R95), and the rows of the opcode map by the
fields they test (R92). -/

section DecodeByFields
variable {w : Word} {op : Byte}

/-- R95: the fields of a word that decodes to no command, one alternative for each `illegal` branch of the decoder. -/
theorem illegal_fields {why : Illegal} (h : decode w = .illegal why) :
    fieldRsvd w ≠ 0 ∨ 7 ≤ (fieldOp w).toNat ∨ (fieldData w ≠ 0 ∧ fieldOp w ≠ 0x02#8 ∧ fieldOp w ≠ 0x04#8) := by
  unfold decode at h
  split_ifs at h with hr h2 h4 hd hlt h0 h1 h3 h5 h6
  · exact .inl hr
  · exact .inr (.inr ⟨hd, h2, h4⟩)
  · exact .inr (.inr ⟨hd, h2, h4⟩)
  · exact .inr (.inl (by bv_omega))

theorem opcodeOf_of_decode {c : Instr} (h : decode w = .command c) : opcodeOf c = fieldOp w := by
  obtain ⟨-, ho, -⟩ := decode_fields h
  exact ho.symm

/-- R92: OP of a command is 0x00 to 0x06, and a command without an operand has DATA 0. -/
theorem command_field_bounds (c : Instr) :
    (opcodeOf c).toNat < 7 ∧ ((operand c).getD 0 = 0 ∨ opcodeOf c = 0x02#8 ∨ opcodeOf c = 0x04#8) := by
  cases c <;> simp [opcodeOf, operand]

/-- R95 read as what is legal: the words that decode to a command with this OP. -/
theorem decode_command_with_op_iff : (∃ c, decode w = .command c ∧ opcodeOf c = op) ↔
    fieldRsvd w = 0 ∧ fieldOp w = op ∧ op.toNat < 7 ∧ (fieldData w = 0 ∨ op = 0x02#8 ∨ op = 0x04#8) := by
  constructor
  · rintro ⟨c, hw, rfl⟩
    obtain ⟨hr, ho, hd⟩ := decode_fields hw
    exact ⟨hr, ho, hd ▸ command_field_bounds c⟩
  · rintro ⟨hr, rfl, hop, hd⟩
    cases hw : decode w with
    | command c => exact ⟨c, rfl, opcodeOf_of_decode hw⟩
    | illegal why =>
      rcases illegal_fields hw with hr' | hop' | ⟨hd', h2, h4⟩
      · exact absurd hr hr'
      · omega
      · exact ((hd.resolve_left hd').elim h2 h4).elim

/-- R94: decoding answers either a command, whose OP is then the word's, or ILLEGAL. -/
theorem decode_illegal_iff :
    (∃ why, decode w = .illegal why) ↔ ¬ ∃ c, decode w = .command c ∧ opcodeOf c = fieldOp w := by
  cases hw : decode w with
  | illegal why => simp
  | command c => simp [opcodeOf_of_decode hw]

end DecodeByFields

section OpcodeRows
variable {w : Word} {r : OpcodeRow}

/-- R91: masking a word masks each of its fields. -/
theorem and_eq_iff_fields {m p : Word} : w &&& m = p ↔ fieldRsvd w &&& fieldRsvd m = fieldRsvd p ∧
    fieldOp w &&& fieldOp m = fieldOp p ∧ fieldData w &&& fieldData m = fieldData p := by
  simp only [fieldRsvd, fieldOp, fieldData, ← BitVec.extractLsb'_and]
  constructor
  · rintro rfl
    exact ⟨rfl, rfl, rfl⟩
  · rintro ⟨hr, ho, hd⟩
    exact word_eq_of_fields hr ho hd

/-- R92: a row's mask keeps RSVD and OP whole, and DATA too unless the row is COUNT's or PACK's; its match has RSVD 0,
the row's OP and DATA 0. -/
theorem row_fields : ∀ r ∈ opcodeMap, r.op.toNat < 7 ∧
    (fieldRsvd r.mask = BitVec.allOnes 16 ∧ fieldOp r.mask = BitVec.allOnes 8 ∧
      fieldData r.mask = if r.op = 0x02#8 ∨ r.op = 0x04#8 then 0 else BitVec.allOnes 8) ∧
    fieldRsvd r.pattern = 0 ∧ fieldOp r.pattern = r.op ∧ fieldData r.pattern = 0 := by
  decide

/-- R92: what a row tests of a word. -/
theorem row_matches_iff (h : r ∈ opcodeMap) : w &&& r.mask = r.pattern ↔
    fieldRsvd w = 0 ∧ fieldOp w = r.op ∧ (fieldData w = 0 ∨ r.op = 0x02#8 ∨ r.op = 0x04#8) := by
  obtain ⟨-, ⟨hrm, hom, hdm⟩, hrp, hop, hdp⟩ := row_fields r h
  rw [and_eq_iff_fields, hrm, hom, hdm, hrp, hop, hdp, BitVec.and_allOnes, BitVec.and_allOnes]
  split_ifs with hdata
  · simp [hdata]
  · rw [BitVec.and_allOnes, or_iff_left hdata]

/-- R92: a row's test is a test of what the word decodes to. -/
theorem row_matches_iff_decode (h : r ∈ opcodeMap) :
    w &&& r.mask = r.pattern ↔ ∃ c, decode w = .command c ∧ opcodeOf c = r.op := by
  rw [row_matches_iff h, decode_command_with_op_iff, and_iff_right (row_fields r h).1]

/-- R92: the rows have distinct OPs. -/
theorem row_eq_of_op_eq : ∀ r ∈ opcodeMap, ∀ r' ∈ opcodeMap, r.op = r'.op → r = r' := by
  decide

/-- R92: every command has a row. -/
theorem exists_row (c : Instr) : ∃ r ∈ opcodeMap, opcodeOf c = r.op := by
  cases c <;> simp [opcodeMap, opcodeOf]

end OpcodeRows

/-! The statements of spec/30_encoding.md about the opcode map and the illegal words. -/

section SettledEncoding

/-- Settles O3: a row tests a word's fields, as the decoder does, and OP tells the rows apart. -/
theorem opcodeMapMatchesDecode : Obligations.OpcodeMapMatchesDecode := by
  refine ⟨fun w r hr => row_matches_iff_decode hr, fun w r r' hr hr' h h' => ?_, fun w c hw => ?_⟩
  · obtain ⟨-, ho, -⟩ := (row_matches_iff hr).1 h
    obtain ⟨-, ho', -⟩ := (row_matches_iff hr').1 h'
    exact row_eq_of_op_eq r hr r' hr' (ho.symm.trans ho')
  · obtain ⟨r, hr, hop⟩ := exists_row c
    exact ⟨r, hr, (row_matches_iff_decode hr).2 ⟨c, hw, hop⟩⟩

/-- Settles O4: the illegal words are those without the fields of a command, and dispatch rejects them. -/
theorem illegalWordsRaiseIllegalCommand : Obligations.IllegalWordsRaiseIllegalCommand := by
  refine fun w => ⟨?_, fun hw => (encode_of_decode hw).symm, ?_⟩
  · rw [decode_illegal_iff, decode_command_with_op_iff]
    simp only [true_and, not_and_or, not_or, not_lt, ne_eq]
  · rintro s ⟨why, hw⟩
    rw [dispatchWord_illegal hw, rejectWord]
    exact ⟨fun hs => if_neg hs, fun hs => if_pos hs⟩

end SettledEncoding
end Sys2Proof.Laws

namespace Sys2Proof.Laws

open Sys2Proof.Machine

/-! SUPPORT. Commands and dispatched words by the phase they meet (spec/40_command_control.md R120 to R124). -/

section CommandsByPhase
variable {c : Instr} {s : State}

/-- R121: the legality table. In ERROR, for which it has no column, only the commands legal in every phase are. -/
theorem legal_iff (c : Instr) (p : Phase) : legal c p = true ↔
    c = .nop ∨ c = .start ∨ c = .ioerr ∨
    (p = .counting ∧ (c = .build ∨ ∃ d, c = .count d)) ∨
    (p = .packing ∧ (c = .finish ∨ ∃ d, c = .pack d)) := by
  cases c <;> simp [legal]

/-- R120: in ERROR every command but START is ignored. -/
theorem exec_ignored (hs : s.phase = .error) (hc : c ≠ .start) : exec c s = .next s :=
  (exec_eq_perform c s).trans (perform_ignored hs hc)

/-- R120: outside ERROR a command not legal in the phase raises ILLEGAL_COMMAND. -/
theorem exec_illegal (hs : s.phase ≠ .error) (hl : legal c s.phase = false) :
    exec c s = .next (raiseError .illegalCommand (encode c) s) :=
  (exec_eq_perform c s).trans (perform_illegal hs hl)

/-- R122: in ERROR because it is ignored, elsewhere because its own effect is none. -/
theorem exec_nop (s : State) : exec .nop s = .next s := by
  by_cases hs : s.phase = .error
  · exact exec_ignored hs (by decide)
  · exact (exec_eq_perform _ s).trans (perform_ok (.inl hs) rfl rfl)

/-- R124: IOERR is legal in every phase, and its own effect is to raise IO_ERROR. -/
theorem exec_ioerr (hs : s.phase ≠ .error) : exec .ioerr s = .next (raiseError .ioError (encode .ioerr) s) :=
  (exec_eq_perform _ s).trans (perform_error hs rfl rfl)

end CommandsByPhase

section WordsByPhase
variable {w : Word} {s : State}

/-- R95, R120: in ERROR every word but START's is ignored, whether it decodes to a command or not. -/
theorem dispatchWord_ignored (hs : s.phase = .error) (hw : decode w ≠ .command .start) :
    dispatchWord w s = .next s := by
  cases hd : decode w with
  | illegal why => rw [dispatchWord_illegal hd, rejectWord, if_pos hs]
  | command c =>
    rw [dispatchWord_command hd]
    exact exec_ignored hs fun hc => hw (hc ▸ hd)

/-- R120: outside ERROR a word that decodes to no command legal in the phase raises ILLEGAL_COMMAND with that word. -/
theorem dispatchWord_not_legal (hs : s.phase ≠ .error) (hw : ∀ c, decode w = .command c → legal c s.phase = false) :
    dispatchWord w s = .next (raiseError .illegalCommand w s) := by
  cases hd : decode w with
  | illegal why => rw [dispatchWord_illegal hd, rejectWord, if_neg hs]
  | command c => rw [dispatchWord_command hd, exec_illegal hs (hw c hd), encode_of_decode hd]

end WordsByPhase

/-! SUPPORT. The state START leaves (spec/40_command_control.md R123), read back and started again. -/

section StartedRun
variable (s : State)

/-- R123: START twice is START once. -/
theorem startRun_startRun : startRun (startRun s) = startRun s := rfl

theorem statusWord_startRun : statusWord (startRun s) = 0x00000001#32 := by
  simp [statusWord, bitCount, flagDone, flagErr, Phase.bits]

theorem errInfoWord_startRun : errInfoWord (startRun s) = 0 := by
  simp [errInfoWord, Phase.bits, ErrCode.bits]

end StartedRun

/-! The statements of spec/40_command_control.md about dispatch and the control commands. -/

section SettledControl

/-- Settles O12: the table row by row, then what each word meets in ERROR and outside it. -/
theorem dispatchFollowsPhaseTable : Obligations.DispatchFollowsPhaseTable :=
  ⟨legal_iff, fun _ _ => ⟨dispatchWord_ignored, dispatchWord_not_legal, fun _ hw _ => dispatchWord_command hw⟩⟩

/-- Settles O21: NOP has no effect of its own, and a word that decodes to it is its encoding. -/
theorem nopChangesNothing : Obligations.NopChangesNothing :=
  ⟨exec_nop, rfl, fun _ hw => (encode_of_decode hw).symm⟩

/-- Settles O22: START leaves `startRun`, a cleared run in COUNTING, which a second START leaves as it is. -/
theorem startBeginsRun : Obligations.StartBeginsRun := by
  refine ⟨rfl, fun s => ⟨startRun s, exec_start s, startRun_phase s, runCleared_startRun s, startRun_out s,
    startRun_hostQueue s, startRun_busResponse s, ?_, ?_, ?_, ?_, fun hs c hc => exec_ignored hs hc⟩⟩
  · rw [exec_start, startRun_startRun]
  · rw [readRegister_status, statusWord_startRun]
  · rw [readRegister_errInfo, errInfoWord_startRun]
  · rw [readRegister_errCmd, startRun_errCmd]

/-- Settles O23: IOERR is legal in every phase and always raises; in ERROR it is ignored before that. -/
theorem ioerrRaisesIoError : Obligations.IoerrRaisesIoError :=
  ⟨rfl, fun _ => ⟨exec_ioerr, fun hs => exec_ignored hs (by decide)⟩⟩

end SettledControl
end Sys2Proof.Laws

namespace Sys2Proof.Laws

open Sys2Proof.Machine

/-! SUPPORT. COUNT in COUNTING, below the limit and at it (spec/41_frequency_counter.md R150). -/

section Counting
variable {d : Byte} {s : State}

/-- R121: COUNT's row of the legality table. -/
theorem legal_count_iff {p : Phase} : legal (.count d) p = true ↔ p = .counting := by
  simp [legal]

/-- R150: below the limit COUNT writes FREQ[d] and ORIG_SIZE. -/
theorem exec_count (hs : s.phase = .counting) (hlim : s.origSize ≠ Config.maxInputLen) :
    exec (.count d) s =
      .next { s with freq := writeAt s.freq d (readAt s.freq d + 1), origSize := s.origSize + 1 } :=
  (exec_eq_perform _ s).trans
    (perform_ok (.inl (by simp [hs])) (legal_count_iff.2 hs) (countBody_ok.2 ⟨hlim, rfl⟩))

/-- R150: at the limit COUNT raises COUNT_OVERFLOW on the state before it. -/
theorem exec_count_overflow (hs : s.phase = .counting) (hlim : s.origSize = Config.maxInputLen) :
    exec (.count d) s = .next (raiseError .countOverflow (encode (.count d)) s) :=
  (exec_eq_perform _ s).trans
    (perform_error (by simp [hs]) (legal_count_iff.2 hs) (countBody_error.2 ⟨hlim, rfl⟩))

end Counting

/-! The statement of spec/41_frequency_counter.md about COUNT. -/

section SettledCounting

/-- Settles O24: COUNT's own effect below the limit and at it, and the dispatch where COUNT is not legal. -/
theorem countAddsOne : Obligations.CountAddsOne := by
  refine fun d s => ⟨rfl, fun hs hlim => ⟨_, exec_count hs hlim, fun b => readAt_writeAt _ _ b _, rfl, rfl⟩,
    fun hs hlim => ?_, fun hs he => ?_⟩
  · rw [exec_count_overflow hs hlim, raiseError, hs]
  · exact exec_illegal he (Bool.eq_false_iff.2 (legal_count_iff.not.2 hs))

end SettledCounting
end Sys2Proof.Laws

namespace Sys2Proof.Laws

open Sys2Proof.Machine

/-! SUPPORT. The queue's order: extraction and one pass of the loop, on keys with different ids
(spec/42_huffman_tree_builder.md R172, R173). -/

section QueueOrder
variable {a b k j : Key} {q q' : List Key} {tree tree' : List Node}

/-- R172: of two keys with different ids one is less. -/
theorem Key.less_of_not_less (hid : a.id ≠ b.id) (h : b.less a = false) : a.less b = true := by
  rw [← Bool.not_eq_true, Key.less_iff] at h
  rw [Key.less_iff]
  omega

/-- Extraction keeps the ids different. -/
theorem nodup_ids_extractMin (hq : ((k :: q).map Key.id).Nodup) :
    (((extractMin k q).1 :: (extractMin k q).2).map Key.id).Nodup :=
  ((extractMin_perm k q).map Key.id).nodup_iff.2 hq

/-- R172: the extracted key is less than every key left in the queue. -/
theorem extractMin_less (hq : ((k :: q).map Key.id).Nodup) (hj : j ∈ (extractMin k q).2) :
    (extractMin k q).1.less j = true := by
  have hid := (List.nodup_cons.1 (nodup_ids_extractMin hq)).1
  refine Key.less_of_not_less (fun h => hid (h ▸ List.mem_map_of_mem hj)) ?_
  exact extractMin_least k q j ((extractMin_perm k q).subset (List.mem_cons_of_mem _ hj))

/-- R173: all a pass of the loop can do: it merges the two least keys, the smaller on the left, and keeps the others. -/
theorem mergeStep_eq_some (hq : (q.map Key.id).Nodup) (h : mergeStep q tree = some (q', tree')) :
    ∃ x y rest, q.Perm (x :: y :: rest) ∧ x.less y = true ∧ (∀ z ∈ rest, y.less z = true) ∧
      q' = ⟨(mergeNode x y).count, tree.length⟩ :: rest ∧ tree' = tree ++ [mergeNode x y] := by
  cases q with
  | nil => simp [mergeStep] at h
  | cons k q =>
    have hperm := extractMin_perm k q
    have hnd := (List.nodup_cons.1 (nodup_ids_extractMin hq)).2
    have hleast := fun j => extractMin_less (j := j) hq
    simp only [mergeStep] at h
    split at h
    · simp at h
    · rename_i k₁ q₁ hq₁
      rw [hq₁] at hperm hnd hleast
      have hperm₁ := extractMin_perm k₁ q₁
      simp only [Option.some.injEq, Prod.mk.injEq] at h
      exact ⟨_, _, _, ((hperm₁.cons _).trans hperm).symm, hleast _ (hperm₁.subset (by simp)),
        fun z => extractMin_less hnd, h.1.symm, h.2.symm⟩

/-- What holds before the loop and is kept by every pass holds after it. -/
theorem mergeLoop_induction {P : List Key → List Node → Prop}
    (hstep : ∀ q tree q' tree', P q tree → mergeStep q tree = some (q', tree') → P q' tree') (fuel : Nat) :
    ∀ q tree, P q tree → P (mergeLoop fuel q tree).1 (mergeLoop fuel q tree).2 := by
  induction fuel with
  | zero => exact fun _ _ h => h
  | succ fuel ih =>
    intro q tree h
    simp only [mergeLoop]
    split
    · exact h
    · exact ih _ _ (hstep _ _ _ _ h ‹_›)

end QueueOrder

/-! SUPPORT. Live nodes and what a merge makes of them (spec/42_huffman_tree_builder.md R170, R173). A node is live in a
store when no node of the store has it as a child; the store before node i was made is `tree.take i`. -/

section LiveNodes
variable {tree : List Node} {k x y : Key} {i j z : Nat} {n : Node}

/-- The key of a live node: one that no node of the store has as a child. -/
structure LiveKey (tree : List Node) (k : Key) : Prop where
  exists_node : k.id < tree.length
  key : k = keyAt tree k.id
  not_child : ∀ j, ¬ childOf tree k.id j

theorem keyAt_append (hz : z < tree.length) (more : List Node) : keyAt (tree ++ more) z = keyAt tree z := by
  rw [keyAt, keyAt, List.getElem?_append_left hz]

theorem keyAt_length : keyAt (tree ++ [n]) tree.length = ⟨n.count, tree.length⟩ := by
  simp [keyAt]

theorem keyAt_take (hz : z < i) : keyAt (tree.take i) z = keyAt tree z := by
  rw [keyAt, keyAt, List.getElem?_take_of_lt hz]

theorem childOf_take : childOf (tree.take i) z j ↔ j < i ∧ childOf tree z j := by
  by_cases hj : j < i <;> simp [childOf, hj]

/-- The keys that were live when node i was made. -/
theorem liveKey_take (hi : i ≤ tree.length) : LiveKey (tree.take i) k ↔
    k.id < i ∧ k = keyAt tree k.id ∧ ∀ j < i, ¬ childOf tree k.id j := by
  have hlen : (tree.take i).length = i := List.length_take_of_le hi
  constructor
  · rintro ⟨hlt, hkey, hchild⟩
    rw [hlen] at hlt
    exact ⟨hlt, hkey.trans (keyAt_take hlt), fun j hj hz => hchild j (childOf_take.2 ⟨hj, hz⟩)⟩
  · rintro ⟨hlt, hkey, hchild⟩
    refine ⟨hlen.symm ▸ hlt, hkey.trans (keyAt_take hlt).symm, fun j hz => ?_⟩
    obtain ⟨hj, hz⟩ := childOf_take.1 hz
    exact hchild j hj hz

/-- A merge makes its two nodes children and no other. -/
theorem childOf_append_mergeNode : childOf (tree ++ [mergeNode x y]) z j ↔
    childOf tree z j ∨ (j = tree.length ∧ (z = x.id ∨ z = y.id)) := by
  rcases lt_trichotomy j tree.length with hj | rfl | hj
  · simp [childOf, List.getElem?_append_left hj, hj.ne]
  · simp [childOf, mergeNode]
  · have hnone : (tree ++ [mergeNode x y])[j]? = none := List.getElem?_eq_none (by simp; omega)
    have hnone' : tree[j]? = none := List.getElem?_eq_none hj.le
    simp [childOf, hnone, hnone', hj.ne']

/-- Two live keys with one id are the same key. -/
theorem LiveKey.ext_id (hx : LiveKey tree x) (hy : LiveKey tree y) (h : x.id = y.id) : x = y := by
  rw [hx.key, hy.key, h]

/-- R170, R173: after a merge the live keys are the new node's and the others that were live before. -/
theorem liveKey_append_mergeNode (hx : LiveKey tree x) (hy : LiveKey tree y)
    (hnew : ∀ j, ¬ childOf tree tree.length j) :
    LiveKey (tree ++ [mergeNode x y]) k ↔
      k = ⟨(mergeNode x y).count, tree.length⟩ ∨ (LiveKey tree k ∧ k ≠ x ∧ k ≠ y) := by
  constructor
  · intro ⟨hlt, hkey, hchild⟩
    simp only [childOf_append_mergeNode, not_or, not_and] at hchild
    obtain ⟨hkx, hky⟩ := (hchild tree.length).2 rfl
    rcases Nat.lt_succ_iff_lt_or_eq.1 (by simpa using hlt : k.id < tree.length + 1) with hk | hk
    · rw [keyAt_append hk] at hkey
      exact .inr ⟨⟨hk, hkey, fun j => (hchild j).1⟩, fun h => hkx (h ▸ rfl), fun h => hky (h ▸ rfl)⟩
    · rw [hk, keyAt_length] at hkey
      exact .inl hkey
  · rintro (rfl | ⟨hk, hkx, hky⟩)
    · refine ⟨by simp, keyAt_length.symm, fun j => ?_⟩
      simp only [childOf_append_mergeNode, not_or, not_and]
      exact ⟨hnew j, fun _ => ⟨hx.exists_node.ne', hy.exists_node.ne'⟩⟩
    · refine ⟨hk.exists_node.trans (by simp), hk.key.trans (keyAt_append hk.exists_node _).symm, fun j => ?_⟩
      simp only [childOf_append_mergeNode, not_or, not_and]
      exact ⟨hk.not_child j, fun _ => ⟨fun h => hkx (hk.ext_id hx h), fun h => hky (hk.ext_id hy h)⟩⟩

end LiveNodes

/-! SUPPORT. What every pass of the loop keeps (spec/42_huffman_tree_builder.md R173, R177). -/

/-- R173: x and y are the two least live keys of the store, x the smaller, with counts that sum to at most `total`. -/
structure TwoLeast (total : Nat) (before : List Node) (x y : Key) : Prop where
  left : LiveKey before x
  right : LiveKey before y
  less : x.less y = true
  least : ∀ z, LiveKey before z → z ≠ x → z ≠ y → y.less z = true
  counts : x.count.toNat + y.count.toNat ≤ total

/-- What the loop keeps: the queue holds each live key once, its counts sum to at most `total`, and every internal node
merged the two least live keys of the store before it. -/
structure MergeInv (total : Nat) (q : List Key) (tree : List Node) : Prop where
  ids : (q.map Key.id).Nodup
  live : ∀ k, k ∈ q ↔ LiveKey tree k
  counts : (q.map fun k => k.count.toNat).sum ≤ total
  merged : ∀ i c l r, tree[i]? = some (.internal c l r) →
    ∃ x y, Node.internal c l r = mergeNode x y ∧ TwoLeast total (tree.take i) x y

section LoopInvariant
variable {total j z : Nat} {x y : Key} {q q' : List Key} {tree tree' : List Node}

/-- A child is older than its parent. -/
theorem MergeInv.child_lt (h : MergeInv total q tree) (hz : childOf tree z j) : z < j ∧ j < tree.length := by
  obtain ⟨c, l, r, hj, hzl⟩ := hz
  obtain ⟨x, y, hn, hxy⟩ := h.merged j c l r hj
  have hlt := (List.getElem?_eq_some_iff.1 hj).1
  have hx := hxy.left.exists_node
  have hy := hxy.right.exists_node
  rw [List.length_take] at hx hy
  obtain ⟨-, rfl, rfl⟩ := Node.internal.inj hn
  rcases hzl with rfl | hzl
  · omega
  · obtain rfl := Option.some.inj hzl
    omega

/-- The two keys a pass extracts are the two least live ones. -/
theorem MergeInv.twoLeast {rest : List Key} (h : MergeInv total q tree) (hperm : q.Perm (x :: y :: rest))
    (hxy : x.less y = true) (hrest : ∀ z ∈ rest, y.less z = true) : TwoLeast total tree x y where
  left := (h.live x).1 (hperm.symm.subset (by simp))
  right := (h.live y).1 (hperm.symm.subset (by simp))
  less := hxy
  least z hz hzx hzy := by
    have := hperm.subset ((h.live z).2 hz)
    simp only [List.mem_cons, hzx, hzy, false_or] at this
    exact hrest z this
  counts := by
    have := h.counts
    rw [(hperm.map _).sum_eq, List.map_cons, List.map_cons, List.sum_cons, List.sum_cons] at this
    omega

/-- Every pass of the loop keeps the invariant. -/
theorem MergeInv.step (h : MergeInv total q tree) (hs : mergeStep q tree = some (q', tree')) :
    MergeInv total q' tree' := by
  obtain ⟨x, y, rest, hperm, hxy, hrest, rfl, rfl⟩ := mergeStep_eq_some h.ids hs
  have htwo := h.twoLeast hperm hxy hrest
  have hids := (hperm.map Key.id).nodup_iff.1 h.ids
  have hnd : (x :: y :: rest).Nodup := hids.of_map
  have hmem : ∀ k, k ∈ rest ↔ LiveKey tree k ∧ k ≠ x ∧ k ≠ y := fun k => by
    rw [← h.live, hperm.mem_iff]
    simp only [List.nodup_cons, List.mem_cons] at hnd ⊢
    grind
  refine ⟨?_, fun k => ?_, ?_, fun i c l r hi => ?_⟩
  · refine List.nodup_cons.2 ⟨fun hmk => ?_, hids.of_cons.of_cons⟩
    obtain ⟨k, hk, hkid⟩ := List.mem_map.1 hmk
    exact ((hmem k).1 hk).1.exists_node.ne hkid
  · rw [List.mem_cons, hmem, liveKey_append_mergeNode htwo.left htwo.right
      fun j hj => by have := h.child_lt hj; omega]
  · have := h.counts
    have hsum : (mergeNode x y).count.toNat ≤ x.count.toNat + y.count.toNat :=
      (BitVec.toNat_add ..).trans_le (Nat.mod_le _ _)
    rw [(hperm.map _).sum_eq] at this
    simp only [List.map_cons, List.sum_cons] at this ⊢
    omega
  · rcases Nat.lt_or_ge i tree.length with hlt | hge
    · rw [List.take_append_of_le_length hlt.le]
      exact h.merged i c l r (by rwa [List.getElem?_append_left hlt] at hi)
    · obtain ⟨hlen, hn⟩ := List.getElem?_eq_some_iff.1 hi
      obtain rfl : i = tree.length := by simp at hlen; omega
      rw [List.take_left]
      exact ⟨x, y, by simpa using hn.symm, htwo⟩

end LoopInvariant

/-! SUPPORT. The leaves, which the loop begins with, and TREE, which it ends with (spec/42_huffman_tree_builder.md R170,
R171). -/

section Leaves
variable {freq : Table Word} {i j z : Nat} {k : Key}

/-- R171: the leaves are one for each counted byte value, in ascending order, with its count. -/
theorem leaves_eq_counted (freq : Table Word) :
    leaves freq = (allBytes.filter fun b => readAt freq b ≠ 0).map fun b => .leaf b (readAt freq b) := by
  simpa [symbols, Function.comp_def, bne, Bool.beq_eq_decide_eq] using leaves_eq_map freq

theorem leaves_get_ne_internal (c : Word) (l : Nat) (r : Option Nat) :
    (leaves freq)[i]? ≠ some (.internal c l r) := by
  intro h
  have := List.mem_of_getElem? h
  simp [leaves_eq_counted] at this

theorem not_childOf_leaves : ¬ childOf (leaves freq) z j := by
  rintro ⟨c, l, r, h, -⟩
  exact leaves_get_ne_internal c l r h

/-- A key is in the first queue exactly when it is that of a node of the store. -/
theorem mem_leafKeys {ls : List Node} : k ∈ leafKeys ls ↔ k.id < ls.length ∧ k = keyAt ls k.id := by
  obtain ⟨c, id⟩ := k
  simp only [leafKeys, List.mem_map, Prod.exists, List.mem_zipIdx_iff_getElem?, keyAt, Key.mk.injEq]
  constructor
  · rintro ⟨n, i, hi, rfl, rfl⟩
    exact ⟨(List.getElem?_eq_some_iff.1 hi).1, by simp [hi]⟩
  · rintro ⟨hlt, hc, -⟩
    exact ⟨ls[id], id, List.getElem?_eq_getElem hlt, by simp [hc, hlt]⟩

/-- The first queue holds the leaves' counts. -/
theorem map_count_leafKeys (ls : List Node) : (leafKeys ls).map Key.count = ls.map Node.count := by
  conv_rhs => rw [← List.zipIdx_map_fst 0 ls]
  rw [leafKeys, List.map_map, List.map_map]
  rfl

/-- A sum over the counted byte values' counts times f is one over all byte values. -/
theorem sum_symbols (freq : Table Word) (f : Byte → Nat) :
    ((symbols freq).map fun p => p.2 * f p.1).sum = sumBytes fun b => (readAt freq b).toNat * f b := by
  rw [symbols, List.map_map]
  refine (sumBytes_counted freq fun b => (readAt freq b).toNat * f b).symm.trans (sumBytes_congr fun b => ?_)
  split <;> simp [*]

/-- The loop begins in its invariant. -/
theorem mergeInv_leaves (freq : Table Word) :
    MergeInv (sumBytes fun b => (readAt freq b).toNat) (leafKeys (leaves freq)) (leaves freq) where
  ids := by
    have : (leafKeys (leaves freq)).map Key.id = List.range (leaves freq).length := by
      simp [leafKeys, Function.comp_def, List.range_eq_range']
    exact this ▸ List.nodup_range
  live k := mem_leafKeys.trans
    ⟨fun ⟨hlt, hkey⟩ => ⟨hlt, hkey, fun _ => not_childOf_leaves⟩, fun h => ⟨h.exists_node, h.key⟩⟩
  counts := by
    have hmap : (leafKeys (leaves freq)).map (fun k => k.count.toNat) = (symbols freq).map fun p => p.2 * 1 := by
      have := congrArg (List.map BitVec.toNat) (map_count_leafKeys (leaves freq))
      simpa [leaves_eq_counted, symbols, Function.comp_def, bne, Bool.beq_eq_decide_eq, Node.count] using this
    rw [hmap, sum_symbols freq fun _ => 1]
    simp
  merged i c l r h := absurd h (leaves_get_ne_internal c l r)

/-- R170: unless one byte value is counted, TREE is what the loop makes of the leaves. -/
theorem treeBuild_eq_mergeLoop (h : nsym freq ≠ 1) :
    (treeBuild freq).1 = (mergeLoop (leaves freq).length (leafKeys (leaves freq)) (leaves freq)).2 := by
  unfold treeBuild
  dsimp only
  split
  · rename_i l hl
    exact absurd (by rw [← length_leaves, hl]; rfl) h
  · rfl

/-- R173: unless one byte value is counted, every internal node of TREE merged the two least nodes then live. -/
theorem treeBuild_merges (h : nsym freq ≠ 1) {c : Word} {l : Nat} {r : Option Nat}
    (hi : (treeBuild freq).1[i]? = some (.internal c l r)) :
    ∃ x y, Node.internal c l r = mergeNode x y ∧
      TwoLeast (sumBytes fun b => (readAt freq b).toNat) ((treeBuild freq).1.take i) x y := by
  rw [treeBuild_eq_mergeLoop h] at hi ⊢
  exact (mergeLoop_induction (P := MergeInv _) (fun _ _ _ _ => MergeInv.step) _ _ _ (mergeInv_leaves freq)).merged
    i c l r hi

/-- R171: TREE begins with the leaves. -/
theorem take_treeBuild (h : 1 ≤ nsym freq) : (treeBuild freq).1.take (nsym freq) = leaves freq := by
  rw [← length_leaves] at h ⊢
  rcases Nat.eq_or_lt_of_le h with h1 | h2
  · obtain ⟨l, hl⟩ := List.length_eq_one_iff.1 h1.symm
    simp [treeBuild, hl]
  · obtain ⟨T, more, hbuild, -⟩ := treeBuild_spec (length_leaves freq ▸ h2)
    rw [hbuild, List.take_left]

end Leaves

/-! SUPPORT. One counted byte value (R175). -/

section OneSymbol
variable {freq : Table Word}

theorem exists_only_counted (h : nsym freq = 1) : ∃ b, readAt freq b ≠ 0 ∧ ∀ c, c ≠ b → readAt freq c = 0 := by
  rw [nsym_eq_card, Finset.card_eq_one] at h
  obtain ⟨b, hb⟩ := h
  have hmem : ∀ c, readAt freq c ≠ 0 ↔ c = b := fun c => by simpa using congrArg (c ∈ ·) hb
  exact ⟨b, (hmem b).2 rfl, fun c hc => by_contra fun h => hc ((hmem c).1 h)⟩

end OneSymbol

/-! SUPPORT. The total length of a code, as the cost of the leaves placed at its depths (R179). -/

section TotalLength
variable {freq : Table Word} {code : Table Bits} {T : CodeTree}

/-- The leaves, each at the depth of its byte value's code. -/
def placedLeaves (freq : Table Word) (code : Table Bits) : List Placed :=
  (symbols freq).map fun p => (.leaf p.1 p.2, codeLen code p.1)

theorem map_fst_placedLeaves (freq : Table Word) (code : Table Bits) :
    (placedLeaves freq code).map Prod.fst = leafTrees freq := by
  simp [placedLeaves, leafTrees_eq_map]

/-- R204: the leaves' cost is the sum of count times code length. -/
theorem placedCost_placedLeaves (freq : Table Word) (code : Table Bits) :
    placedCost (placedLeaves freq code) = sumBytes fun b => (readAt freq b).toNat * codeLen code b := by
  rw [← sum_symbols, placedCost, placedLeaves, List.map_map]
  rfl

/-- A code of which no word begins another's meets the Kraft inequality. -/
theorem kraftSum_placedLeaves_le (hp : PrefixFree freq code) {D : Nat} (hD : ∀ b, codeLen code b ≤ D) :
    kraftSum D (placedLeaves freq code) ≤ 2 ^ D := by
  have hwords : kraftSum D (placedLeaves freq code) =
      wordSum D ((allBytes.filter fun b => readAt freq b != 0).map fun b => readAt code b) := by
    simp [kraftSum, placedLeaves, symbols, wordSum, codeLen, Function.comp_def]
  rw [hwords]
  refine wordSum_le ?_ ?_
  · rw [List.pairwise_map]
    refine (nodup_allBytes.filter _).imp_of_mem fun {a b} ha hb hab => ?_
    have ha : readAt freq a ≠ 0 := by simpa using ha
    have hb : readAt freq b ≠ 0 := by simpa using hb
    exact ⟨hp a b ha hb hab, hp b a hb ha hab.symm⟩
  · intro w hw
    obtain ⟨b, -, rfl⟩ := List.mem_map.1 hw
    exact hD b

/-- A code of a tree's paths has the tree's cost for its total length. -/
theorem sumBytes_codeOf_eq_cost (hleaf : T.leafList.Perm (symbols freq))
    (hcode : ∀ b p, (b, p) ∈ T.paths [] → readAt (codeOf freq) b = p) :
    sumBytes (fun b => (readAt freq b).toNat * codeLen (codeOf freq) b) = T.cost := by
  have hw : ∀ p ∈ T.leafList, p.2 = (readAt freq p.1).toNat := fun p hp => by
    obtain ⟨b, -, rfl⟩ := List.mem_map.1 (hleaf.subset hp)
    rfl
  have hsum := sumBytes_paths hleaf hcode fun b n => (readAt freq b).toNat * n
  rw [T.sum_paths_eq_cost [] (fun b => (readAt freq b).toNat) hw] at hsum
  refine (sumBytes_congr fun b => ?_).trans (hsum.trans (by simp))
  split <;> simp [*]

theorem cost_leafTrees (freq : Table Word) : ((leafTrees freq).map CodeTree.cost).sum = 0 := by
  simp [leafTrees_eq_map, Function.comp_def, CodeTree.cost]

/-- R179: a code made by greedy merging is no longer in all than any other `PrefixFree` code. -/
theorem codeOf_le_prefixFree (h : 2 ≤ nsym freq) (hs : sumBytes (fun b => (readAt freq b).toNat) ≤ 2 ^ 32 - 1)
    (hp : PrefixFree freq code) : sumBytes (fun b => (readAt freq b).toNat * codeLen (codeOf freq) b) ≤
      sumBytes fun b => (readAt freq b).toNat * codeLen code b := by
  obtain ⟨T, hg, hleaf, hcode, -⟩ := codeOf_spec h
  have hdepth : ∀ r ∈ placedLeaves freq code, r.2 ≤ sumBytes (codeLen code) := fun r hr => by
    obtain ⟨p, -, rfl⟩ := List.mem_map.1 hr
    exact le_sumBytes (codeLen code) p.1
  calc sumBytes (fun b => (readAt freq b).toNat * codeLen (codeOf freq) b)
      = T.cost := sumBytes_codeOf_eq_cost hleaf hcode
    _ ≤ placedCost (placedLeaves freq code) + ((leafTrees freq).map CodeTree.cost).sum :=
        (hg.exact_leafTrees hs).cost_le (.of_eq (map_fst_placedLeaves freq code)) hdepth
          (kraftSum_placedLeaves_le hp (le_sumBytes _))
    _ = sumBytes fun b => (readAt freq b).toNat * codeLen code b := by
        rw [placedCost_placedLeaves, cost_leafTrees, Nat.add_zero]

end TotalLength

/-! The statements of spec/42_huffman_tree_builder.md. -/

section SettledTree

/-- Settles O41: extraction reorders the queue, and with different ids the least key is strictly least. -/
theorem extractionTakesLeastKey : Obligations.ExtractionTakesLeastKey := by
  intro k q hq
  refine ⟨extractMin_perm k q, fun j hj => ?_⟩
  simpa only [← BitVec.toNat_inj] using (Key.less_iff _ _).1 (extractMin_less hq hj)

/-- Settles O42: the loop and the synthetic root only append to the leaves. -/
theorem leavesAscendByByteValue : Obligations.LeavesAscendByByteValue := by
  intro freq h
  rw [← leaves_eq_counted, take_treeBuild h]

/-- Settles O46: the one counted byte value's tree and code, by the laws of the wrap. -/
theorem singleSymbolWrapped : Obligations.SingleSymbolWrapped := by
  intro freq h
  obtain ⟨b, hb, honly⟩ := exists_only_counted h
  refine ⟨b, hb, treeBuild_single hb honly, ?_⟩
  rw [codeOf_single hb honly]
  exact ⟨by simp, fun c hc => by simp [hc]⟩

/-- Settles O43: the loop's invariant at the pass that made node i, read in the finished TREE. -/
theorem mergesTakeTwoLeastLiveNodes : Obligations.MergesTakeTwoLeastLiveNodes := by
  intro freq i x c right h hi
  obtain ⟨kx, ky, hn, htwo⟩ := treeBuild_merges (by omega) hi
  have hlen := (List.getElem?_eq_some_iff.1 hi).1.le
  obtain ⟨hx, hkx, hxchild⟩ := (liveKey_take hlen).1 htwo.left
  obtain ⟨hy, hky, hychild⟩ := (liveKey_take hlen).1 htwo.right
  obtain ⟨hc, rfl, rfl⟩ := Node.internal.inj hn
  refine ⟨ky.id, rfl, hx, hy, ?_⟩
  rw [← hkx, ← hky]
  refine ⟨fun hs => ?_, htwo.less, fun j hj => ⟨hxchild j hj, hychild j hj⟩, fun z hz hzx hzy hzchild => ?_⟩
  · have := htwo.counts
    rw [hc, BitVec.toNat_add, Nat.mod_eq_of_lt (by omega)]
  · exact htwo.least _ ((liveKey_take hlen).2 ⟨hz, rfl, hzchild⟩) (fun h => hzx (congrArg Key.id h))
      fun h => hzy (congrArg Key.id h)

/-- Settles O51: greedy merging is optimal among the placements that meet the Kraft inequality, as every
`PrefixFree` code does. -/
theorem codeIsOptimal : Obligations.CodeIsOptimal := by
  refine fun freq => ⟨fun h hs code hp => codeOf_le_prefixFree h hs hp, fun h b hb => ?_⟩
  obtain ⟨c, hc, honly⟩ := exists_only_counted h
  obtain rfl : b = c := by_contra fun hne => hb (honly b hne)
  simp [codeLen, codeOf_single hb honly]

end SettledTree
end Sys2Proof.Laws

namespace Sys2Proof.Laws

open Sys2Proof.Machine

/-! SUPPORT. Where bits lead from TREE's root, by how many byte values are counted (spec/43_code_table_generator.md
R200). -/

section RootToLeafPaths
variable {freq : Table Word} {b c : Byte} {p : Bits} {m n : Word} {i k : Nat} {tree : List Node} {T : CodeTree}

/-- R200: the bits that lead from the root to a byte value's leaf are its code, a counted one's leaf holds its count,
and one not counted has no code. -/
def CodesArePaths (tree : List Node) (root : Nat) (freq : Table Word) (code : Table Bits) : Prop :=
  ∀ b, (readAt freq b ≠ 0 → followPath tree root (readAt code b) = some (.leaf b (readAt freq b))) ∧
    (∀ path n, followPath tree root path = some (.leaf b n) → readAt code b = path) ∧
    (readAt freq b = 0 → readAt code b = [])

theorem followPath_nil (root : Nat) (p : Bits) : followPath [] root p = none := by
  cases p <;> simp [followPath]

/-- R175: from a synthetic root the one bit 0 leads to the leaf, and no other bits lead to a leaf. -/
theorem followPath_wrap : followPath [.leaf b n, .internal n 0 none] 1 p = some (.leaf c m) ↔
    p = [false] ∧ c = b ∧ m = n := by
  match p with
  | [] => simp [followPath]
  | [false] => simp [followPath, eq_comm]
  | false :: _ :: _ => simp [followPath]
  | true :: _ => simp [followPath]

/-- The bits that lead to a leaf of a stored tree are its path. -/
theorem Represents.followPath_leaf_iff (h : Represents tree i T) :
    (∃ m, followPath tree i p = some (.leaf b m)) ↔ (b, p) ∈ T.paths [] :=
  (h.followPath_leaf (pre := []) (n := 0)).2

/-- A leaf of a stored tree holds its count. -/
theorem Represents.count_of_followPath_leaf (h : Represents tree i T) (hf : followPath tree i p = some (.leaf b n)) :
    ∃ k, n = BitVec.ofNat 32 k ∧ (b, k) ∈ T.leafList :=
  (h.followPath_leaf (pre := [])).1 hf

theorem mem_symbols : (b, k) ∈ symbols freq ↔ readAt freq b ≠ 0 ∧ k = (readAt freq b).toNat := by
  simp only [symbols, List.mem_map, List.mem_filter, mem_allBytes, true_and, bne_iff_ne, Prod.mk.injEq]
  exact ⟨fun ⟨_, hb, hbc, hk⟩ => hbc ▸ ⟨hb, hk.symm⟩, fun ⟨hb, hk⟩ => ⟨b, hb, rfl, hk.symm⟩⟩

/-- R176: with no byte value counted, TREE is empty. -/
theorem treeBuild_none (h : nsym freq = 0) : treeBuild freq = ([], 0) := by
  have hl : leaves freq = [] := List.eq_nil_of_length_eq_zero ((length_leaves freq).trans h)
  simp [treeBuild, hl, leafKeys, mergeLoop]

theorem codeOf_none (h : nsym freq = 0) : codeOf freq = fillTable [] := by
  simp [codeOf, treeBuild_none h, codeGen, walk]

theorem codesArePaths_none (h : nsym freq = 0) :
    CodesArePaths (treeBuild freq).1 (treeBuild freq).2 freq (codeOf freq) := by
  intro b
  rw [treeBuild_none h, codeOf_none h]
  refine ⟨fun hb => absurd ((nsym_eq_zero_iff freq).1 h b) hb, fun path n hf => ?_, fun _ => readAt_fillTable [] b⟩
  rw [followPath_nil] at hf
  cases hf

theorem codesArePaths_single (h : nsym freq = 1) :
    CodesArePaths (treeBuild freq).1 (treeBuild freq).2 freq (codeOf freq) := by
  obtain ⟨c, hc, honly⟩ := exists_only_counted h
  intro b
  rw [treeBuild_single hc honly, codeOf_single hc honly, readAt_writeAt, readAt_fillTable]
  refine ⟨fun hb => ?_, fun path n hf => ?_, fun hb => if_neg ?_⟩
  · obtain rfl : b = c := by_contra fun hne => hb (honly b hne)
    rw [if_pos rfl]
    exact followPath_wrap.2 ⟨rfl, rfl, rfl⟩
  · obtain ⟨rfl, rfl, -⟩ := followPath_wrap.1 hf
    exact if_pos rfl
  · rintro rfl
    exact hc hb

/-- R200: with two or more byte values counted, TREE stores a tree whose paths the codes are. -/
theorem codesArePaths_merged (h : 2 ≤ nsym freq) :
    CodesArePaths (treeBuild freq).1 (treeBuild freq).2 freq (codeOf freq) := by
  obtain ⟨T, -, hleaf, hcode, hpath, hnone, hrep⟩ := codeOf_spec h
  refine fun b => ⟨fun hb => ?_, fun path n hf => hcode b path (hrep.followPath_leaf_iff.1 ⟨n, hf⟩), hnone b⟩
  obtain ⟨n, hn⟩ := hrep.followPath_leaf_iff.2 (hpath b hb)
  obtain ⟨k, rfl, hk⟩ := hrep.count_of_followPath_leaf hn
  obtain ⟨-, rfl⟩ := mem_symbols.1 (hleaf.subset hk)
  simpa using hn

/-- R200: every code is the path in TREE from the root to its leaf. -/
theorem codesArePaths_codeOf (freq : Table Word) :
    CodesArePaths (treeBuild freq).1 (treeBuild freq).2 freq (codeOf freq) := by
  match h : nsym freq with
  | 0 => exact codesArePaths_none h
  | 1 => exact codesArePaths_single h
  | _ + 2 => exact codesArePaths_merged (by omega)

end RootToLeafPaths

/-! SUPPORT. The tables BUILD's result holds (spec/44_header_serializer.md R225). -/

section BuildResult
variable (tree : List Node) (code : Table Bits) (s : State)

@[simp] theorem buildResult_freq : (buildResult tree code s).freq = s.freq := rfl
@[simp] theorem buildResult_tree : (buildResult tree code s).tree = tree := rfl
@[simp] theorem buildResult_code : (buildResult tree code s).code = code := rfl

end BuildResult

/-! SUPPORT. BUILD with a counted byte value (spec/44_header_serializer.md R225): its checks pass (R202), and the root
is TREE's last node. -/

section BuildSucceeds
variable {freq : Table Word} {b : Byte} {s : State}

/-- R174, R175: the root is the last node made. -/
theorem root_treeBuild (h : nsym freq ≠ 0) : (treeBuild freq).2 = (treeBuild freq).1.length - 1 := by
  by_cases h1 : nsym freq = 1
  · obtain ⟨c, hc, honly⟩ := exists_only_counted h1
    simp [treeBuild_single hc honly]
  · obtain ⟨T, more, hbuild, -, -, hmore, -⟩ := treeBuild_spec (freq := freq) (by omega)
    simp only [hbuild, List.length_append, length_leaves, hmore]
    omega

/-- R180: with two or more byte values counted, no code is as long as the tree has leaves. -/
theorem codeLen_codeOf_lt (h : 2 ≤ nsym freq) (hb : readAt freq b ≠ 0) : codeLen (codeOf freq) b < nsym freq := by
  obtain ⟨T, -, hleaf, -, hpath, -, -⟩ := codeOf_spec h
  have hlen := CodeTree.length_of_mem_paths (hpath b hb)
  have hsyms : T.leafList.length = nsym freq := by simp [hleaf.length_eq, symbols, nsym]
  simpa [hsyms, codeLen, Nat.succ_le_iff] using hlen

/-- R202: no code exceeds the longest the header can hold. -/
theorem codeLen_codeOf_le (freq : Table Word) (b : Byte) : codeLen (codeOf freq) b ≤ Config.maxCodeLen := by
  by_cases hb : readAt freq b = 0
  · obtain ⟨-, -, hnone⟩ := codesArePaths_codeOf freq b
    simp [codeLen, hnone hb]
  by_cases h : 2 ≤ nsym freq
  · exact Nat.le_of_lt_succ ((codeLen_codeOf_lt h hb).trans_le (nsym_le freq))
  · have h0 : nsym freq ≠ 0 := fun h0 => hb ((nsym_eq_zero_iff freq).1 h0 b)
    obtain ⟨c, hc, honly⟩ := exists_only_counted (freq := freq) (by omega)
    obtain rfl : b = c := by_contra fun hne => hb (honly b hne)
    simp [codeLen, codeOf_single hc honly, Config.maxCodeLen]

theorem codeTooLong_codeOf (freq : Table Word) : codeTooLong (codeOf freq) = false :=
  List.any_eq_false.2 fun b _ => by simpa using codeLen_codeOf_le freq b

/-- R225: in COUNTING, with a counted byte value, BUILD completes. -/
theorem exec_build (hs : s.phase = .counting) (h : nsym s.freq ≠ 0) :
    exec .build s = .next (buildResult (treeBuild s.freq).1 (codeOf s.freq) s) :=
  (exec_eq_perform _ s).trans (perform_ok (.inl (by simp [hs])) (by simp [hs, legal])
    (buildBody_ok.2 ⟨h, Nat.sub_le_of_le_add (nsym_le s.freq), codeTooLong_codeOf s.freq, rfl⟩))

end BuildSucceeds

/-! The statement of spec/43_code_table_generator.md about the codes' paths. -/

section SettledPaths

/-- Settles O47: the codes are the paths of TREE for every FREQ, and BUILD stores both, with the root last. -/
theorem codesAreRootToLeafPaths : Obligations.CodesAreRootToLeafPaths := by
  refine ⟨codesArePaths_codeOf, fun s hs h => ⟨_, exec_build hs h, ?_⟩⟩
  simp only [buildResult_freq, buildResult_tree, buildResult_code, ← root_treeBuild h]
  exact codesArePaths_codeOf s.freq

end SettledPaths
end Sys2Proof.Laws

namespace Sys2Proof.Laws

open Sys2Proof.Machine

/-! SUPPORT. The totals and the header BUILD writes fit their registers when no code is longer than 255 bits
(spec/43_code_table_generator.md R204 to R206, spec/44_header_serializer.md R220, R222). -/

section RegisterWidths
variable {code : Table Bits}

theorem sumBytes_le {f : Byte → Nat} {k : Nat} (h : ∀ b, f b ≤ k) : sumBytes f ≤ 256 * k :=
  (sumBytes_mono h).trans_eq (by simp only [sumBytes, List.map_const', List.sum_replicate, length_allBytes, smul_eq_mul])

/-- R205: the padding is one of 0 to 7. -/
theorem paddingFor_lt (total : Nat) : paddingFor total < 8 := by
  unfold paddingFor
  omega

/-- R222: an entry is the byte value, the length and the code's digits; an empty code has none. -/
theorem length_headerEntries (code : Table Bits) :
    (headerEntries code).length = sumBytes fun b => if codeLen code b > 0 then codeLen code b + 2 else 0 := by
  rw [headerEntries, List.length_flatMap]
  refine sumBytes_congr fun b => ?_
  split <;> simp [headerEntry, codeLen]

/-- R220: the count, the entries and the padding. -/
theorem length_headerBytes (code : Table Bits) (n padding : Nat) :
    (headerBytes code n padding).length = (headerEntries code).length + 2 := by
  simp [headerBytes]

section LengthsInRange
variable (h : ∀ b, codeLen code b ≤ Config.maxCodeLen)
include h

/-- R204: 256 counts of 32 bits, each times at most 255. -/
theorem totalCodeBits_lt (freq : Table Word) : totalCodeBits freq code < 2 ^ 48 :=
  calc totalCodeBits freq code
    _ ≤ 256 * (2 ^ 32 * 255) := sumBytes_le fun b => Nat.mul_le_mul (readAt freq b).isLt.le (h b)
    _ < 2 ^ 48 := by decide

theorem length_headerBytes_lt (n padding : Nat) : (headerBytes code n padding).length < 2 ^ 32 := by
  have hentry (b : Byte) : (if codeLen code b > 0 then codeLen code b + 2 else 0) ≤ 257 := by
    have hb : codeLen code b ≤ 255 := h b
    split <;> omega
  have hsum := sumBytes_le hentry
  rw [length_headerBytes, length_headerEntries]
  omega

end LengthsInRange
end RegisterWidths

/-! SUPPORT. The totals and the header in BUILD's result (spec/44_header_serializer.md R225), as naturals. -/

section BuildResultTotals
variable {tree : List Node} {code : Table Bits} {s : State}

/-- R205: PADDING holds its value exactly, whatever the total. -/
theorem toNat_buildResult_padding :
    (buildResult tree code s).padding.toNat = paddingFor (totalCodeBits s.freq code) :=
  Nat.mod_eq_of_lt (paddingFor_lt _)

/-- R73: BUILD appends the header of the code and the padding it stores. -/
theorem buildResult_out : (buildResult tree code s).out =
    s.out ++ headerBytes code (nsym s.freq) (buildResult tree code s).padding.toNat := by
  rw [toNat_buildResult_padding]
  rfl

/-- R220: the header's last byte is PADDING. -/
theorem headerBytes_toNat_padding (n : Nat) (p : BitVec 3) : headerBytes code n p.toNat =
    BitVec.ofNat 8 (n - 1) :: headerEntries code ++ [p.setWidth 8] := by
  rw [headerBytes, BitVec.ofNat_toNat]

section LengthsInRange
variable (h : ∀ b, codeLen code b ≤ Config.maxCodeLen)
include h

theorem toNat_buildResult_totalBits :
    (buildResult tree code s).totalBits.toNat = totalCodeBits s.freq code :=
  Nat.mod_eq_of_lt ((totalCodeBits_lt h s.freq).trans (by decide))

theorem toNat_buildResult_payloadBytes :
    (buildResult tree code s).payloadBytes.toNat = payloadBytesFor (totalCodeBits s.freq code) := by
  refine Nat.mod_eq_of_lt ?_
  have htotal := totalCodeBits_lt h s.freq
  unfold payloadBytesFor
  omega

theorem toNat_buildResult_headerLen : (buildResult tree code s).headerLen.toNat =
    (headerBytes code (nsym s.freq) (buildResult tree code s).padding.toNat).length := by
  rw [toNat_buildResult_padding]
  exact Nat.mod_eq_of_lt (length_headerBytes_lt h _ _)

end LengthsInRange
end BuildResultTotals

/-! SUPPORT. BUILD where it does not complete (spec/44_header_serializer.md R225, R226). -/

section BuildRaises
variable {s t : State}

/-- R121: BUILD's row of the legality table. -/
theorem legal_build_iff {p : Phase} : legal .build p = true ↔ p = .counting := by
  simp [legal]

/-- R225: with no byte counted BUILD raises EMPTY_INPUT on the state before it. -/
theorem exec_build_empty (hs : s.phase = .counting) (h : nsym s.freq = 0) :
    exec .build s = .next (raiseError .emptyInput (encode .build) s) :=
  (exec_eq_perform _ s).trans
    (perform_error (by simp [hs]) (legal_build_iff.2 hs) (buildBody_error.2 (.inl ⟨h, rfl⟩)))

end BuildRaises

/-! The statements of spec/44_header_serializer.md about what BUILD writes and what it writes when it fails. -/

section SettledBuild

/-- Settles O26: BUILD leaves `buildResult`, whose registers hold their naturals because no code exceeds 255 bits. -/
theorem buildBuildsCodeAndHeader : Obligations.BuildBuildsCodeAndHeader := by
  refine ⟨rfl, fun s => ⟨fun hs h => ?_, fun hs h => ?_, fun hs he => ?_⟩⟩
  · have hlen := codeLen_codeOf_le s.freq
    have htotal := toNat_buildResult_totalBits (tree := (treeBuild s.freq).1) (s := s) hlen
    refine ⟨_, _, exec_build hs h, rfl, rfl, rfl, htotal, ?_, ?_, headerBytes_toNat_padding _ _, buildResult_out,
      toNat_buildResult_headerLen hlen, rfl, rfl⟩
    · rw [htotal]
      exact toNat_buildResult_padding
    · rw [htotal]
      exact toNat_buildResult_payloadBytes hlen
  · rw [exec_build_empty hs h, raiseError, hs]
    rfl
  · exact exec_illegal he (Bool.eq_false_iff.2 (legal_build_iff.not.2 hs))

/-- Settles O27: an error entry writes only the error record and PHASE, and the empty input makes one. -/
theorem failedBuildChangesNothingElse : Obligations.FailedBuildChangesNothingElse := by
  refine fun s he => ⟨fun t ht hp => ?_, fun hs h => ⟨_, exec_build_empty hs h, rfl, rfl, rfl⟩⟩
  obtain ⟨code, -, rfl⟩ := dispatchWord_enters_error he ((dispatchWord_command (w := encode .build) rfl).trans ht) hp
  rfl

end SettledBuild
end Sys2Proof.Laws

namespace Sys2Proof.Laws

open Sys2Proof.Machine

/-! SUPPORT. Push, read by the bits of a byte written out and by STATUS.BITCNT (spec/45_bit_packer.md R250, R251). -/

section Pushing
variable (bits : Bits) (s : State)

/-- R251: the oldest bit of an emitted byte is its bit 7. -/
theorem byteBits_eq_list (v : Byte) : byteBits v = [v.getLsbD 7, v.getLsbD 6, v.getLsbD 5, v.getLsbD 4,
    v.getLsbD 3, v.getLsbD 2, v.getLsbD 1, v.getLsbD 0] := rfl

/-- R250: whatever BITBUF held, fewer than 8 bits are left after Push. -/
theorem length_push_bitBuf_le : (push bits s).bitBuf.length ≤ 7 := by
  obtain ⟨_, -, -, -, hleft⟩ := push_spec bits s
  omega

/-- R252, flags written: after Push STATUS.BITCNT is the exact length of BITBUF. -/
theorem bitCount_field_push :
    ((readRegister 0x004#12 (push bits s)).extractLsb' 8 3).toNat = (push bits s).bitBuf.length := by
  obtain ⟨-, -, -, -, hcount, -⟩ := statusFields (push bits s)
  exact hcount (length_push_bitBuf_le bits s)

end Pushing

/-! SUPPORT. A strict bound on sums over the byte values. -/

section StrictSums

theorem sumBytes_lt {f g : Byte → Nat} {d : Byte} (h : ∀ b, f b ≤ g b) (hd : f d < g d) :
    sumBytes f < sumBytes g := by
  rw [sumBytes_eq_sum, sumBytes_eq_sum]
  exact Finset.sum_lt_sum (fun b _ => h b) ⟨d, by simp, hd⟩

end StrictSums

/-! SUPPORT. PACK in PACKING, with an occurrence owed and with none (spec/45_bit_packer.md R252). -/

section Packing
variable {d : Byte} {s : State}

/-- R121: PACK's row of the legality table. -/
theorem legal_pack_iff {p : Phase} : legal (.pack d) p = true ↔ p = .packing := by
  simp [legal]

/-- R252: with an occurrence owed PACK writes REMAIN[d] and PACKED_IN and pushes CODE[d]. -/
theorem exec_pack (hs : s.phase = .packing) (hd : readAt s.remain d ≠ 0) :
    exec (.pack d) s = .next (push (readAt s.code d)
      { s with remain := writeAt s.remain d (readAt s.remain d - 1), packedIn := s.packedIn + 1 }) :=
  (exec_eq_perform _ s).trans
    (perform_ok (.inl (by simp [hs])) (legal_pack_iff.2 hs) (packBody_ok.2 ⟨hd, rfl⟩))

/-- R252: with none owed PACK raises INPUT_MISMATCH on the state before it. -/
theorem exec_pack_mismatch (hs : s.phase = .packing) (hd : readAt s.remain d = 0) :
    exec (.pack d) s = .next (raiseError .inputMismatch (encode (.pack d)) s) :=
  (exec_eq_perform _ s).trans
    (perform_error (by simp [hs]) (legal_pack_iff.2 hs) (packBody_error.2 ⟨hd, rfl⟩))

/-- R252, corner cases: while an occurrence is owed, pass 2 has presented fewer bytes than pass 1 counted. -/
theorem packedIn_lt_origSize (h : Inv s) (hs : s.phase = .packing) (hd : readAt s.remain d ≠ 0) :
    s.packedIn.toNat < s.origSize.toNat := by
  have hb := h.built (.inl (by simp [stage, hs]))
  have howed := hb.owed d
  have hpos : 0 < (readAt s.remain d).toNat := Nat.pos_of_ne_zero (mt (BitVec.eq_of_toNat_eq (y := 0)) hd)
  rw [hb.packed, ← h.counted]
  exact sumBytes_lt (fun b => Nat.sub_le _ _) (Nat.sub_lt (hpos.trans_le howed) hpos)

/-- R252, corner cases: so PACKED_IN does not wrap, and stays at most ORIG_SIZE. -/
theorem packedIn_add_one_le (h : Inv s) (hs : s.phase = .packing) (hd : readAt s.remain d ≠ 0) :
    (s.packedIn + 1).toNat ≤ s.origSize.toNat := by
  rw [BitVec.toNat_add]
  exact (Nat.mod_le _ _).trans (packedIn_lt_origSize h hs hd)

end Packing

/-! The statements of spec/45_bit_packer.md about Push and PACK. -/

section SettledPacking

/-- Settles O31: `push_spec`, with the bits of each byte written out. -/
theorem pushEmitsWholeBytesInOrder : Obligations.PushEmitsWholeBytesInOrder := by
  intro bits s
  obtain ⟨bytes, hout, hbits, hbytes, hleft⟩ := push_spec bits s
  exact ⟨bytes, hout, funext byteBits_eq_list ▸ hbits, hbytes, hleft, length_push_bitBuf_le bits s⟩

/-- Settles O29: PACK's own effect is Push on the counted-down state; then the two errors. -/
theorem packPushesCode : Obligations.PackPushesCode := by
  refine fun d s => ⟨rfl, fun hs hd => ?_, fun hs hd => ?_, fun hs he => ?_⟩
  · obtain ⟨bytes, hout, hbits, hbytes, -⟩ := push_spec (readAt s.code d)
      { s with remain := writeAt s.remain d (readAt s.remain d - 1), packedIn := s.packedIn + 1 }
    exact ⟨_, bytes, exec_pack hs hd, fun b => readAt_writeAt _ _ b _, rfl, hout, hbits, hbytes,
      length_push_bitBuf_le _ _, bitCount_field_push _ _, fun h => packedIn_add_one_le h hs hd, rfl⟩
  · rw [exec_pack_mismatch hs hd, raiseError, hs]
  · exact exec_illegal he (Bool.eq_false_iff.2 (legal_pack_iff.not.2 hs))

end SettledPacking
end Sys2Proof.Laws

namespace Sys2Proof.Laws

open Sys2Proof.Machine

/-! SUPPORT. The two ways out of ERROR, for a command and for a step (spec/60_exceptions.md R303). -/

section LeavingError
variable {s t : State}

/-- R303: the only command that leaves ERROR is START. -/
theorem exec_leaves_error {c : Instr} (hs : s.phase = .error) (h : exec c s = .next t) (ht : t.phase ≠ .error) :
    c = .start ∧ t = startRun s := by
  by_cases hc : c = .start
  · subst hc
    rw [exec_start] at h
    cases h
    exact ⟨rfl, rfl⟩
  · rw [exec_ignored hs hc] at h
    cases h
    exact absurd hs ht

/-- R303: the only steps that leave ERROR are reset and a write of START's word to CMD. -/
theorem step_leaves_error (hs : s.phase = .error) (h : step s = .next t) (ht : t.phase ≠ .error) :
    (∃ rest, s.hostQueue = .reset :: rest ∧ t = resetBlock { s with hostQueue := rest }) ∨
    ∃ rest, s.hostQueue = .write 0x000#12 4 (encode .start) :: rest ∧ t = startRun (taken rest s) := by
  rcases step_cases h with
    ⟨-, rfl⟩ | hreset | ⟨_, _, _, -, rfl⟩ | ⟨_, _, -, -, hne, -⟩ | ⟨w, rest, c, hq, hd, he⟩
  · exact absurd hs ht
  · exact .inl hreset
  · exact absurd hs ht
  · exact absurd hs hne
  · obtain ⟨rfl, hstart⟩ := exec_leaves_error (s := taken rest s) hs he ht
    exact .inr ⟨rest, encode_of_decode hd ▸ hq, hstart⟩

end LeavingError

/-! The statements of spec/60_exceptions.md about entering and leaving ERROR. -/

section SettledErrorEntryAndExit

/-- Settles O34: the only way into ERROR is the error entry, which writes those four fields. -/
theorem errorEntryIsAtomic : Obligations.ErrorEntryIsAtomic := by
  intro w s t hs h ht
  obtain ⟨code, hcode, rfl⟩ := dispatchWord_enters_error hs h ht
  exact ⟨rfl, hcode⟩

/-- Settles O35: `step_leaves_error`, with the fields that reset and START leave. -/
theorem errorLeftOnlyByStartOrReset : Obligations.ErrorLeftOnlyByStartOrReset := by
  intro s t hs h ht
  obtain ⟨rest, hq, rfl⟩ | ⟨rest, hq, rfl⟩ := step_leaves_error hs h ht
  · exact .inl ⟨rest, hq, resetBlock_phase _⟩
  · exact .inr ⟨rest, hq, startRun_phase _, startRun_errCode _, startRun_errPhase _, startRun_errCmd _⟩

end SettledErrorEntryAndExit
end Sys2Proof.Laws

namespace Sys2Proof.Laws

open Sys2Proof.Machine

/-! SUPPORT. Decoding a command's own word (spec/30_encoding.md R92, R94). -/

section DecodeOfEncode

/-- R93: the type of DATA bounds it. -/
theorem wellFormed_instr (c : Instr) : c.wellFormed = true := by
  cases c with
  | count d => exact decide_eq_true d.isLt
  | pack d => exact decide_eq_true d.isLt
  | _ => rfl

/-- R94: the branch of the decoder that the fields of a command's word choose. -/
theorem decode_encode (c : Instr) : decode (encode c) = .command c := by
  obtain ⟨hr, ho, hd⟩ := encode_fields c
  rw [decode, hr, ho, hd]
  cases c <;> simp [opcodeOf, operand]

end DecodeOfEncode

/-! The statements of spec/30_encoding.md about words and commands. -/

section SettledWords

/-- Settles O2: `decode_encode` one way and `encode_of_decode` the other. -/
theorem decodeAndEncodeAgree : Obligations.DecodeAndEncodeAgree :=
  ⟨fun c => ⟨wellFormed_instr c, decode_encode c⟩, fun _ _ => encode_of_decode⟩

/-- Settles O1: each word of the map is a command's encoding. -/
theorem opcodeMapWordsDecode : Obligations.OpcodeMapWordsDecode :=
  ⟨decode_encode .nop, decode_encode .start, decode_encode (.count 0x41#8), decode_encode .build,
    decode_encode (.pack 0xFF#8), decode_encode .finish, decode_encode .ioerr⟩

end SettledWords
end Sys2Proof.Laws

namespace Sys2Proof.Laws

open Sys2Proof.Machine

/-! SUPPORT. Paths of TREE that end in a leaf, and the codes as a set (spec/43_code_table_generator.md R200, R201). -/

section PrefixCode
variable {freq : Table Word} {tree : List Node} {i : Nat} {a b x : Byte} {n : Word} {p q : Bits}

/-- R200: no bits lead on from a leaf. -/
theorem followPath_beyond_leaf {bit : Bool} (h : followPath tree i p = some (.leaf b n)) :
    followPath tree i (p ++ bit :: q) = none := by
  induction p generalizing i with
  | nil =>
    have h : tree[i]? = some (.leaf b n) := h
    simp [followPath, h]
  | cons c p ih =>
    simp only [followPath, List.cons_append] at h ⊢
    split at h
    · exact ih h
    · exact ih h
    · cases h

/-- R201: of two paths that lead to different leaves neither begins with the other. -/
theorem not_prefix_of_followPath {m : Word} (ha : followPath tree i p = some (.leaf a n))
    (hb : followPath tree i q = some (.leaf b m)) (hne : a ≠ b) : ¬ p <+: q := by
  rintro ⟨more, rfl⟩
  cases more with
  | nil =>
    rw [List.append_nil, ha] at hb
    cases hb
    exact hne rfl
  | cons bit more =>
    rw [followPath_beyond_leaf ha] at hb
    cases hb

theorem followPath_codeOf (hb : readAt freq b ≠ 0) :
    followPath (treeBuild freq).1 (treeBuild freq).2 (readAt (codeOf freq) b) = some (.leaf b (readAt freq b)) :=
  (codesArePaths_codeOf freq b).1 hb

/-- A byte value not counted has no code. -/
theorem codeOf_uncounted (hb : readAt freq b = 0) : readAt (codeOf freq) b = [] :=
  (codesArePaths_codeOf freq b).2.2 hb

/-- R201: for every FREQ no code begins another's. -/
theorem prefixFree_codeOf (freq : Table Word) : PrefixFree freq (codeOf freq) :=
  fun _ _ ha hb hne => not_prefix_of_followPath (followPath_codeOf ha) (followPath_codeOf hb) hne

/-- R201: a counted byte value has a code. An empty one would begin every other, and "0" is the code of a single one. -/
theorem codeOf_ne_nil (hb : readAt freq b ≠ 0) : readAt (codeOf freq) b ≠ [] := by
  by_cases h : ∃ c, c ≠ b ∧ readAt freq c ≠ 0
  · obtain ⟨c, hcb, hc⟩ := h
    intro hnil
    exact prefixFree_codeOf freq b c hb hc hcb.symm (hnil ▸ List.nil_prefix)
  · have honly : ∀ c, c ≠ b → readAt freq c = 0 := fun c hc => by_contra fun hne => h ⟨c, hc, hne⟩
    simp [codeOf_single hb honly]

/-- R201: the byte values with a code are the counted ones. -/
theorem codeOf_ne_nil_iff : readAt (codeOf freq) b ≠ [] ↔ readAt freq b ≠ 0 :=
  ⟨fun h hb => h (codeOf_uncounted hb), codeOf_ne_nil⟩

theorem codeLen_codeOf_pos_iff : 0 < codeLen (codeOf freq) b ↔ readAt freq b ≠ 0 :=
  List.length_pos_iff.trans codeOf_ne_nil_iff

end PrefixCode

/-! SUPPORT. Sums over the codes' lengths (spec/43_code_table_generator.md R203, spec/44_header_serializer.md R224). -/

section CodeLengthSums
variable {freq : Table Word} {b : Byte}

/-- A sum over the counted byte values, when one is counted. -/
theorem sumBytes_single (hb : readAt freq b ≠ 0) (honly : ∀ c, c ≠ b → readAt freq c = 0) (f : Byte → Nat) :
    sumBytes (fun c => if readAt freq c = 0 then 0 else f c) = f b := by
  have := sumBytes_change (f := fun c => if readAt freq c = 0 then 0 else f c) (g := fun _ => 0) b
    fun c hc => if_pos (honly c hc)
  simpa only [sumBytes_zero, Nat.add_zero, Nat.zero_add, if_neg hb] using this

/-- R203: with two or more byte values counted the codes are the paths of a tree. -/
theorem kraft_codeOf (h : 2 ≤ nsym freq) :
    sumBytes (fun b => if readAt freq b = 0 then 0 else 2 ^ (255 - codeLen (codeOf freq) b)) = 2 ^ 255 := by
  obtain ⟨T, -, hleaf, hcode, -, -, -⟩ := codeOf_spec h
  have hlen : ∀ e ∈ T.paths [], e.2.length ≤ 255 := fun e he => hcode e.1 e.2 he ▸ codeLen_codeOf_le freq e.1
  rw [sumBytes_paths hleaf hcode fun _ n => 2 ^ (255 - n), T.kraft_paths hlen]
  rfl

/-- R203: the code "0" of a single byte value takes half. -/
theorem kraft_codeOf_single (h : nsym freq = 1) :
    sumBytes (fun b => if readAt freq b = 0 then 0 else 2 ^ (255 - codeLen (codeOf freq) b)) = 2 ^ 254 := by
  obtain ⟨b, hb, honly⟩ := exists_only_counted h
  rw [sumBytes_single hb honly fun b => 2 ^ (255 - codeLen (codeOf freq) b)]
  simp [codeLen, codeOf_single hb honly]

end CodeLengthSums

/-! SUPPORT. The depth of a leaf against the counts (spec/42_huffman_tree_builder.md R180). -/

section DepthBound
variable {freq : Table Word} {b : Byte}

/-- R180: a code of d bits takes counts that sum to at least F(d + 2). -/
theorem fib_codeLen_le (h : 2 ≤ nsym freq) (hb : readAt freq b ≠ 0)
    (hs : sumBytes (fun b => (readAt freq b).toNat) ≤ 2 ^ 32 - 1) :
    Nat.fib (codeLen (codeOf freq) b + 2) ≤ sumBytes fun b => (readAt freq b).toNat := by
  obtain ⟨T, hg, hleaf, -, hpath, -, -⟩ := codeOf_spec h
  obtain ⟨hts, hsib⟩ := balanced_leafTrees freq
  have hfib := (((hg.exact_leafTrees hs).balanced hts hsib).fib_le (hpath b hb)).1
  rwa [weight_eq_total hleaf] at hfib

/-- F(48) is more than 2^32. -/
theorem le_45_of_fib_lt {d : Nat} (h : Nat.fib (d + 2) < 2 ^ 32) : d ≤ 45 := by
  by_contra hd
  have h48 : Nat.fib 48 = 4807526976 := by simp [Nat.fib_add_two]
  have := Nat.fib_mono (by omega : 48 ≤ d + 2)
  omega

/-- R175: with fewer than two byte values counted the only code is "0". -/
theorem codeLen_codeOf_le_one (h : nsym freq < 2) (b : Byte) : codeLen (codeOf freq) b ≤ 1 := by
  by_cases hb : readAt freq b = 0
  · simp [codeLen, codeOf_uncounted hb]
  · have h0 : nsym freq ≠ 0 := fun h0 => hb ((nsym_eq_zero_iff freq).1 h0 b)
    obtain ⟨c, hc, honly⟩ := exists_only_counted (freq := freq) (by omega)
    obtain rfl : b = c := by_contra fun hne => hb (honly b hne)
    simp [codeLen, codeOf_single hc honly]

/-- R180: under the counts' bound no code is longer than 45 bits, however many byte values are counted. -/
theorem codeLen_codeOf_le_45 (hs : sumBytes (fun b => (readAt freq b).toNat) ≤ 2 ^ 32 - 1) (b : Byte) :
    codeLen (codeOf freq) b ≤ 45 := by
  rcases Nat.lt_or_ge (nsym freq) 2 with h | h
  · exact (codeLen_codeOf_le_one h b).trans (by decide)
  by_cases hb : readAt freq b = 0
  · simp [codeLen, codeOf_uncounted hb]
  · exact le_45_of_fib_lt ((fib_codeLen_le h hb hs).trans_lt (by omega))

end DepthBound

/-! SUPPORT. The nodes of TREE, for every FREQ: what they are, and what counts they hold
(spec/42_huffman_tree_builder.md R171, R174, R177). -/

section TreeNodes
variable {freq : Table Word} {i x y : Nat} {c : Word} {n : Node} {r : Option Nat} {tree : List Node} {T : CodeTree}

/-- R174, R175: TREE has 2N - 1 nodes, or the leaf and the synthetic root. -/
theorem length_treeBuild_le (freq : Table Word) : (treeBuild freq).1.length ≤ 511 := by
  have hle := nsym_le freq
  match h : nsym freq with
  | 0 => simp [treeBuild_none h]
  | 1 =>
    obtain ⟨b, hb, honly⟩ := exists_only_counted h
    simp [treeBuild_single hb honly]
  | k + 2 =>
    obtain ⟨T, more, hbuild, -, -, hmore, -⟩ := treeBuild_spec (freq := freq) (by omega)
    simp only [hbuild, List.length_append, length_leaves, hmore]
    omega

/-- R171: a leaf holds its byte value's count. -/
theorem leaf_of_mem_leaves (h : n ∈ leaves freq) : ∃ b, n = .leaf b (readAt freq b) := by
  rw [leaves_eq_counted] at h
  obtain ⟨b, -, rfl⟩ := List.mem_map.1 h
  exact ⟨b, rfl⟩

/-- R171, R173: a node of TREE is one of the leaves or is internal. -/
theorem leaf_or_internal_of_treeBuild (h : n ∈ (treeBuild freq).1) :
    n ∈ leaves freq ∨ ∃ c x y, n = .internal c x y := by
  match hn : nsym freq with
  | 0 => simp [treeBuild_none hn] at h
  | 1 =>
    have hl := take_treeBuild hn.ge
    obtain ⟨b, hb, honly⟩ := exists_only_counted hn
    rw [treeBuild_single hb honly, hn] at hl
    rw [treeBuild_single hb honly, List.mem_cons, List.mem_singleton] at h
    exact h.imp (fun h => by simp [← hl, h]) fun h => ⟨_, _, _, h⟩
  | k + 2 =>
    obtain ⟨T, more, hbuild, -, -, -, hint⟩ := treeBuild_spec (freq := freq) (by omega)
    rw [hbuild, List.mem_append] at h
    exact h.imp_right fun h => (hint n h).imp fun _ ⟨x, y, hn⟩ => ⟨x, some y, hn⟩

/-- R173, R175: a child's id is less than its parent's. -/
theorem child_lt_of_treeBuild (h : (treeBuild freq).1[i]? = some (.internal c x r)) :
    x < i ∧ ∀ y, r = some y → y < i := by
  by_cases h1 : nsym freq = 1
  · obtain ⟨b, hb, honly⟩ := exists_only_counted h1
    rw [treeBuild_single hb honly] at h
    match i, h with
    | 1, h =>
      cases h
      simp
  · obtain ⟨kx, ky, hn, htwo⟩ := treeBuild_merges h1 h
    obtain ⟨-, rfl, rfl⟩ := Node.internal.inj hn
    have hx := htwo.left.exists_node
    have hy := htwo.right.exists_node
    rw [List.length_take] at hx hy
    exact ⟨by omega, fun y hy' => by cases hy'; omega⟩

/-- R177: the counts of two children together are at most the sum of all counts. -/
theorem children_counts_le (h : (treeBuild freq).1[i]? = some (.internal c x (some y))) :
    (keyAt (treeBuild freq).1 x).count.toNat + (keyAt (treeBuild freq).1 y).count.toNat ≤
      sumBytes fun b => (readAt freq b).toNat := by
  by_cases h1 : nsym freq = 1
  · obtain ⟨b, hb, honly⟩ := exists_only_counted h1
    rw [treeBuild_single hb honly] at h
    match i, h with
    | 1, h => cases h
  · obtain ⟨kx, ky, hn, htwo⟩ := treeBuild_merges h1 h
    obtain ⟨-, rfl, hy⟩ := Node.internal.inj hn
    obtain rfl := Option.some.inj hy
    have hlen := (List.getElem?_eq_some_iff.1 h).1.le
    obtain ⟨-, hkx, -⟩ := (liveKey_take hlen).1 htwo.left
    obtain ⟨-, hky, -⟩ := (liveKey_take hlen).1 htwo.right
    rw [← hkx, ← hky]
    exact htwo.counts

/-- R177: a node's count is at most the sum of all counts. A merge's is at most its children's, even if it wrapped. -/
theorem count_le_of_treeBuild (h : (treeBuild freq).1[i]? = some n) :
    n.count.toNat ≤ sumBytes fun b => (readAt freq b).toNat := by
  rcases leaf_or_internal_of_treeBuild (List.mem_of_getElem? h) with hleaf | ⟨c, x, r, rfl⟩
  · obtain ⟨b, rfl⟩ := leaf_of_mem_leaves hleaf
    exact le_sumBytes (fun b => (readAt freq b).toNat) b
  by_cases h1 : nsym freq = 1
  · obtain ⟨b, hb, honly⟩ := exists_only_counted h1
    rw [treeBuild_single hb honly] at h
    match i, h with
    | 1, h =>
      cases h
      exact le_sumBytes (fun b => (readAt freq b).toNat) b
  · obtain ⟨kx, ky, hn, htwo⟩ := treeBuild_merges h1 h
    rw [hn]
    exact ((BitVec.toNat_add ..).trans_le (Nat.mod_le _ _)).trans htwo.counts

theorem keyAt_count_le (freq : Table Word) (i : Nat) :
    (keyAt (treeBuild freq).1 i).count.toNat ≤ sumBytes fun b => (readAt freq b).toNat := by
  unfold keyAt
  cases h : (treeBuild freq).1[i]? with
  | none => exact Nat.zero_le _
  | some n => exact count_le_of_treeBuild h

/-- The node that represents a tree holds its count. -/
theorem Represents.keyAt_count (h : Represents tree i T) : (keyAt tree i).count = T.count := by
  cases T with
  | leaf b k =>
    have h : tree[i]? = some (.leaf b (BitVec.ofNat 32 k)) := h
    simp [keyAt, h, Node.count, CodeTree.count, CodeTree.weight]
  | node l r =>
    obtain ⟨x, y, hi, -⟩ := h
    simp [keyAt, hi, Node.count]

/-- R174: for N ≥ 2 the root's count is the sum of all counts, where that fits 32 bits. -/
theorem root_count (h : 2 ≤ nsym freq) (hs : sumBytes (fun b => (readAt freq b).toNat) ≤ 2 ^ 32 - 1) :
    (keyAt (treeBuild freq).1 (treeBuild freq).2).count.toNat = sumBytes fun b => (readAt freq b).toNat := by
  obtain ⟨T, -, hleaf, -, -, -, hrep⟩ := codeOf_spec h
  rw [hrep.keyAt_count, CodeTree.count, weight_eq_total hleaf, BitVec.toNat_ofNat, Nat.mod_eq_of_lt (by omega)]

end TreeNodes

/-! The statements of spec/42_huffman_tree_builder.md and spec/43_code_table_generator.md about TREE's nodes and the
codes' lengths. -/

section SettledTreeBounds

/-- Settles O45: ids by the tree's length, counts by the loop's invariant. -/
theorem nodeCountsFitWidth : Obligations.NodeCountsFitWidth := by
  intro freq
  have hlen := length_treeBuild_le freq
  refine ⟨hlen, fun i x c right h => ?_, fun hs i => ⟨keyAt_count_le freq i, fun c x y h => ?_⟩⟩
  · have hi := (List.getElem?_eq_some_iff.1 h).1
    obtain ⟨hx, hy⟩ := child_lt_of_treeBuild h
    exact ⟨by omega, fun y hr => by have := hy y hr; omega⟩
  · have := children_counts_le h
    omega

/-- Settles O44: TREE is the leaves followed by the merges. -/
theorem treeHasLeavesThenInternalNodes : Obligations.TreeHasLeavesThenInternalNodes := by
  intro freq h
  obtain ⟨T, more, hbuild, -, -, hmore, hint⟩ := treeBuild_spec h
  have hlen := length_leaves freq
  refine ⟨?_, ?_, fun i hi => ?_, fun i hi hi' => ?_, root_count h⟩
  · simp only [hbuild, List.length_append, hlen, hmore]
    omega
  · rw [hbuild]
  · have hlt : i < (leaves freq).length := by omega
    obtain ⟨b, hb⟩ := leaf_of_mem_leaves (List.getElem_mem hlt)
    rw [hbuild, List.getElem?_append_left hlt, List.getElem?_eq_getElem hlt, hb]
    exact ⟨b, _, rfl⟩
  · have hlt : i - (leaves freq).length < more.length := by omega
    obtain ⟨c, x, y, hn⟩ := hint _ (List.getElem_mem hlt)
    rw [hbuild, List.getElem?_append_right (by omega), List.getElem?_eq_getElem hlt, hn]
    exact ⟨c, x, y, rfl⟩

/-- Settles O48: codes by whether they are empty, and by where TREE's paths lead. -/
theorem codesArePrefixFree : Obligations.CodesArePrefixFree :=
  fun freq => ⟨fun _ => codeOf_ne_nil_iff, prefixFree_codeOf freq⟩

/-- Settles O49: the Kraft sum of a tree's paths, and of the one code "0". -/
theorem kraftSumOfCodes : Obligations.KraftSumOfCodes :=
  fun _ => ⟨kraft_codeOf, kraft_codeOf_single⟩

/-- Settles O50: a path is shorter than the tree has leaves, and a balanced tree's paths obey the Fibonacci bound. -/
theorem codeLengthBounds : Obligations.CodeLengthBounds :=
  fun _ b h hb => ⟨Nat.le_sub_one_of_lt (codeLen_codeOf_lt h hb), fun hs =>
    ⟨fib_codeLen_le h hb hs, codeLen_codeOf_le_45 hs b⟩⟩

end SettledTreeBounds
end Sys2Proof.Laws

namespace Sys2Proof.Laws

open Sys2Proof.Machine

/-! SUPPORT. What a command's own effect does to the error record (spec/60_exceptions.md R300, R303). -/

section EffectsAndErrors
variable {c : Instr} {s t : State} {code : ErrCode}

/-- R300: which commands raise which code. BUILD never raises FORMAT_OVERFLOW, since no code is too long (R202). -/
theorem effect_error_cases (h : effect c s = .error code) :
    (c = .build ∧ code = .emptyInput) ∨ (c = .ioerr ∧ code = .ioError) ∨
    ((c = .finish ∨ ∃ d, c = .pack d) ∧ code = .inputMismatch) ∨ ∃ d, c = .count d ∧ code = .countOverflow := by
  cases c with
  | nop => cases h
  | start => cases h
  | count d => exact .inr (.inr (.inr ⟨d, rfl, (countBody_error.1 h).2⟩))
  | build =>
    rcases buildBody_error.1 h with ⟨-, hcode⟩ | ⟨-, -, hmany | hlong⟩
    · exact .inl ⟨rfl, hcode⟩
    · exact absurd hmany (not_lt.2 (Nat.sub_le_of_le_add (nsym_le s.freq)))
    · rw [codeTooLong_codeOf] at hlong
      cases hlong
  | pack d => exact .inr (.inr (.inl ⟨.inr ⟨d, rfl⟩, (packBody_error.1 h).2⟩))
  | finish => exact .inr (.inr (.inl ⟨.inl rfl, (finishBody_error.1 h).2⟩))
  | ioerr => exact .inr (.inl ⟨rfl, (Except.error.inj h).symm⟩)

/-- R303: of the effects that complete only START's writes the error record. -/
theorem effect_ok_record (h : effect c s = .ok t) :
    t = startRun s ∨ (t.errCode = s.errCode ∧ t.errPhase = s.errPhase ∧ t.errCmd = s.errCmd) := by
  cases c with
  | nop => cases h; exact .inr ⟨rfl, rfl, rfl⟩
  | start => cases h; exact .inl rfl
  | count d => obtain ⟨-, rfl⟩ := countBody_ok.1 h; exact .inr ⟨rfl, rfl, rfl⟩
  | build => obtain ⟨-, -, -, rfl⟩ := buildBody_ok.1 h; exact .inr ⟨rfl, rfl, rfl⟩
  | pack d => obtain ⟨-, rfl⟩ := packBody_ok.1 h; exact .inr ⟨rfl, rfl, rfl⟩
  | finish => obtain ⟨-, rfl⟩ := finishBody_ok.1 h; exact .inr ⟨rfl, rfl, rfl⟩
  | ioerr => cases h

/-- R202: no command brings ERRCODE to FORMAT_OVERFLOW. -/
theorem exec_errCode_ne_formatOverflow (hs : s.errCode ≠ .formatOverflow) (h : exec c s = .next t) :
    t.errCode ≠ .formatOverflow := by
  rcases exec_cases h with ⟨-, -, rfl⟩ | ⟨code, -, -, rfl, ⟨-, rfl⟩ | ⟨-, he⟩⟩ | ⟨-, hok, -⟩
  · exact hs
  · simp
  · rcases effect_error_cases he with ⟨-, rfl⟩ | ⟨-, rfl⟩ | ⟨-, rfl⟩ | ⟨d, -, rfl⟩ <;> simp
  · rcases effect_ok_record hok with rfl | ⟨hcode, -⟩
    · simp
    · exact hcode ▸ hs

end EffectsAndErrors

/-! The statement of spec/43_code_table_generator.md about CodeTooLong. -/

section SettledFormatOverflow

/-- Settles O28: the lengths by the tree's depth, and then no effect raises the code. -/
theorem formatOverflowNeverRaised : Obligations.FormatOverflowNeverRaised :=
  ⟨fun freq b => ⟨codeLen_codeOf_le freq b, codeLen_codeOf_pos_iff.2⟩, fun _ _ _ => exec_errCode_ne_formatOverflow⟩

end SettledFormatOverflow
end Sys2Proof.Laws

namespace Sys2Proof.Laws

open Sys2Proof.Machine

/-! SUPPORT. The length of the header of a run's code (spec/44_header_serializer.md R224). -/

section HeaderLength
variable {freq : Table Word}

theorem sum_two_per_symbol (freq : Table Word) : sumBytes (fun b => if readAt freq b = 0 then 0 else 2) = 2 * nsym freq := by
  rw [sumBytes_counted, List.map_const', List.sum_replicate, nsym, smul_eq_mul, Nat.mul_comm]

/-- R222: each counted byte value has an entry of its code's length and two bytes. -/
theorem length_headerEntries_codeOf (freq : Table Word) :
    (headerEntries (codeOf freq)).length = sumBytes (codeLen (codeOf freq)) + 2 * nsym freq := by
  rw [length_headerEntries, ← sum_two_per_symbol, ← sumBytes_add]
  refine sumBytes_congr fun b => ?_
  by_cases hb : readAt freq b = 0
  · simp [hb, codeLen, codeOf_uncounted hb]
  · rw [if_pos (codeLen_codeOf_pos_iff.2 hb), if_neg hb]

/-- R224: the code lengths sum to at most those of the most unbalanced tree of 256 leaves. -/
theorem sum_codeLen_le (freq : Table Word) : sumBytes (codeLen (codeOf freq)) ≤ 32895 := by
  rcases Nat.lt_or_ge (nsym freq) 2 with h | h
  · exact (sumBytes_le (codeLen_codeOf_le_one h)).trans (by decide)
  · obtain ⟨T, -, hleaf, hcode, -, -, -⟩ := codeOf_spec h
    have hcounted : sumBytes (codeLen (codeOf freq)) =
        sumBytes fun b => if readAt freq b = 0 then 0 else codeLen (codeOf freq) b := by
      refine sumBytes_congr fun b => ?_
      split
      · rename_i hb
        simp [codeLen, codeOf_uncounted hb]
      · rfl
    have hsum := T.sum_length_paths_le []
    have hsyms : T.leafList.length = nsym freq := by simp [hleaf.length_eq, symbols, nsym]
    have hle := nsym_le freq
    have hsq : nsym freq * (nsym freq + 1) ≤ 256 * 257 := Nat.mul_le_mul hle (by omega)
    rw [hsyms, List.length_nil] at hsum
    rw [hcounted, sumBytes_paths hleaf hcode fun _ n => n]
    omega

/-- R224: with a counted byte value there is at least one code bit. -/
theorem one_le_sum_codeLen (h : nsym freq ≠ 0) : 1 ≤ sumBytes (codeLen (codeOf freq)) := by
  rw [ne_eq, nsym_eq_zero_iff, not_forall] at h
  obtain ⟨b, hb⟩ := h
  exact (codeLen_codeOf_pos_iff.2 hb).trans_le (le_sumBytes _ b)

end HeaderLength

/-! SUPPORT. The reference parse on the bytes of a header (spec/44_header_serializer.md R222, R228). -/

section HeaderParse
variable {b : Byte} {code : Bits} {n p : Nat} {rest : List Byte} {table : Table Bits} {freq : Table Word}

theorem parseDigits_map_digitByte (code : Bits) : parseDigits (code.map digitByte) = some code := by
  induction code with
  | nil => rfl
  | cons bit code ih => cases bit <;> simp [parseDigits, digitByte, ih]

/-- R228: one pass reads one entry back. -/
theorem parseEntries_headerEntry (hne : code ≠ []) (hlen : code.length ≤ 255) (hnew : readAt table b = []) :
    parseEntries (n + 1) (headerEntry b code ++ rest) p table =
      parseEntries n rest (p + (headerEntry b code).length) (writeAt table b code) := by
  have hpos := List.length_pos_iff.2 hne
  have htoNat : (BitVec.ofNat 8 code.length).toNat = code.length := by
    rw [BitVec.toNat_ofNat, Nat.mod_eq_of_lt (by omega)]
  have hzero : BitVec.ofNat 8 code.length ≠ 0 := fun h => by
    have := congrArg BitVec.toNat h
    rw [htoNat] at this
    exact hpos.ne' this
  have htake : (code.map digitByte ++ rest).take code.length = code.map digitByte := List.take_left' (by simp)
  have hdrop : (code.map digitByte ++ rest).drop code.length = rest := List.drop_left' (by simp)
  have hshort : ¬ (code.map digitByte ++ rest).length < code.length := by simp
  simp only [headerEntry, List.cons_append, parseEntries, htoNat, hzero, hshort, hnew, htake, hdrop,
    parseDigits_map_digitByte, ne_eq, not_true_eq_false, or_self, if_false, List.length_cons, List.length_map]
  congr 1
  omega

/-- R228: the entries of different byte values, whose codes are not empty, are read back in order. -/
theorem parseEntries_flatMap {es : List (Byte × Bits)} (hnd : (es.map Prod.fst).Nodup)
    (hes : ∀ e ∈ es, e.2 ≠ [] ∧ e.2.length ≤ 255 ∧ readAt table e.1 = []) :
    parseEntries es.length (es.flatMap (fun e => headerEntry e.1 e.2) ++ rest) p table =
      some (rest, p + (es.flatMap fun e => headerEntry e.1 e.2).length,
        es.foldl (fun t e => writeAt t e.1 e.2) table) := by
  induction es generalizing p table with
  | nil => rfl
  | cons e es ih =>
    obtain ⟨hne, hlen, hnew⟩ := hes e (by simp)
    obtain ⟨hfresh, hnd⟩ := List.nodup_cons.1 hnd
    have hes' : ∀ e' ∈ es, e'.2 ≠ [] ∧ e'.2.length ≤ 255 ∧ readAt (writeAt table e.1 e.2) e'.1 = [] := by
      intro e' he'
      obtain ⟨hne', hlen', hnew'⟩ := hes e' (by simp [he'])
      have hdiff : e'.1 ≠ e.1 := fun h => hfresh (h ▸ List.mem_map_of_mem he')
      exact ⟨hne', hlen', by simp [hdiff, hnew']⟩
    rw [List.flatMap_cons, List.append_assoc, List.length_cons, parseEntries_headerEntry hne hlen hnew, ih hnd hes',
      List.length_append, List.foldl_cons, Nat.add_assoc]

/-- R222: the counted byte values with their codes, in ascending order. -/
def codeEntries (freq : Table Word) : List (Byte × Bits) :=
  (allBytes.filter fun b => readAt freq b != 0).map fun b => (b, readAt (codeOf freq) b)

theorem length_codeEntries (freq : Table Word) : (codeEntries freq).length = nsym freq := by
  simp [codeEntries, nsym]

theorem map_fst_codeEntries (freq : Table Word) :
    (codeEntries freq).map Prod.fst = allBytes.filter fun b => readAt freq b != 0 := by
  simp [codeEntries, Function.comp_def]

theorem flatMap_if {α β : Type} (q : α → Bool) (f : α → List β) (l : List α) :
    (l.flatMap fun a => if q a then f a else []) = (l.filter q).flatMap f := by
  induction l with
  | nil => rfl
  | cons a l ih => cases h : q a <;> simp [h, ih]

/-- R222: the header's entries are those of the counted byte values. -/
theorem headerEntries_codeOf (freq : Table Word) :
    headerEntries (codeOf freq) = (codeEntries freq).flatMap fun e => headerEntry e.1 e.2 := by
  have hif : ∀ b, (if codeLen (codeOf freq) b > 0 then headerEntry b (readAt (codeOf freq) b) else []) =
      if readAt freq b != 0 then headerEntry b (readAt (codeOf freq) b) else [] := fun b => by
    simp only [gt_iff_lt, codeLen_codeOf_pos_iff, bne_iff_ne]
  simp only [headerEntries, hif]
  rw [flatMap_if, codeEntries, List.flatMap_map]

/-- R200: writing the entries into an empty table gives the code. -/
theorem foldl_codeEntries (freq : Table Word) :
    (codeEntries freq).foldl (fun t e => writeAt t e.1 e.2) (fillTable []) = codeOf freq := by
  have hnd : ((codeEntries freq).map Prod.fst).Nodup := map_fst_codeEntries freq ▸ nodup_allBytes.filter _
  refine table_ext fun b => ?_
  obtain ⟨hmem, hnot⟩ := readAt_foldl_writeAt hnd (fillTable []) b
  by_cases hb : readAt freq b = 0
  · rw [hnot (by simp [map_fst_codeEntries, hb]), readAt_fillTable, codeOf_uncounted hb]
  · exact hmem _ (List.mem_map.2 ⟨b, by simpa using hb, rfl⟩)

/-- R228: the header of a run's code, with any bytes after it, parses back. -/
theorem parseHeader_headerBytes (h : nsym freq ≠ 0) {padding : Nat} (hp : padding < 8) (rest : List Byte) :
    parseHeader (headerBytes (codeOf freq) (nsym freq) padding ++ rest) =
      some (codeOf freq, padding, (headerBytes (codeOf freq) (nsym freq) padding).length) := by
  have hn : (BitVec.ofNat 8 (nsym freq - 1)).toNat + 1 = nsym freq := by
    have := nsym_le freq
    rw [BitVec.toNat_ofNat, Nat.mod_eq_of_lt (by omega)]
    omega
  have hpad : (BitVec.ofNat 8 padding).toNat = padding := by
    rw [BitVec.toNat_ofNat, Nat.mod_eq_of_lt (by omega)]
  have hes : ∀ e ∈ codeEntries freq, e.2 ≠ [] ∧ e.2.length ≤ 255 ∧ readAt (fillTable ([] : Bits)) e.1 = [] := by
    intro e he
    obtain ⟨b, hb, rfl⟩ := List.mem_map.1 he
    exact ⟨codeOf_ne_nil (by simpa using hb), codeLen_codeOf_le freq b, readAt_fillTable [] b⟩
  have hparse := parseEntries_flatMap (p := 1) (rest := BitVec.ofNat 8 padding :: rest)
    (map_fst_codeEntries freq ▸ nodup_allBytes.filter _) hes
  rw [length_codeEntries, ← headerEntries_codeOf, foldl_codeEntries] at hparse
  have hbytes : headerBytes (codeOf freq) (nsym freq) padding ++ rest =
      BitVec.ofNat 8 (nsym freq - 1) :: (headerEntries (codeOf freq) ++ BitVec.ofNat 8 padding :: rest) := by
    simp [headerBytes]
  rw [hbytes, length_headerBytes, parseHeader, hn, hparse]
  simp only [hpad]
  rw [if_neg (by omega), Nat.add_comm 1, Nat.add_assoc]

end HeaderParse

/-! SUPPORT. BUILD that opens pass 2 (spec/44_header_serializer.md R225). -/

section BuildOpensPassTwo
variable {s t : State}

/-- R225: a BUILD that opens pass 2 found a byte counted and leaves its result. -/
theorem exec_build_packing (hs : s.phase = .counting) (h : exec .build s = .next t) (ht : t.phase = .packing) :
    nsym s.freq ≠ 0 ∧ t = buildResult (treeBuild s.freq).1 (codeOf s.freq) s := by
  by_cases hn : nsym s.freq = 0
  · rw [exec_build_empty hs hn] at h
    cases h
    cases ht
  · rw [exec_build hs hn] at h
    cases h
    exact ⟨hn, rfl⟩

/-- R224: HEADER_LEN as a number. -/
theorem buildResult_headerLen (s : State) (tree : List Node) :
    (buildResult tree (codeOf s.freq) s).headerLen.toNat = 2 + 2 * nsym s.freq + sumBytes (codeLen (codeOf s.freq)) := by
  rw [toNat_buildResult_headerLen (codeLen_codeOf_le s.freq), length_headerBytes, length_headerEntries_codeOf]
  omega

end BuildOpensPassTwo

/-! The statements of spec/44_header_serializer.md about the header BUILD emits. -/

section SettledHeader

/-- Settles O52: R224's formula, with the bounds of NSYM and of the lengths' sum. -/
theorem headerLengthAfterBuild : Obligations.HeaderLengthAfterBuild := by
  intro s t hs h ht
  obtain ⟨hn, rfl⟩ := exec_build_packing hs h ht
  have hlen := buildResult_headerLen s (treeBuild s.freq).1
  have hlow := one_le_sum_codeLen hn
  have hhigh := sum_codeLen_le s.freq
  have hsyms := nsym_le s.freq
  exact ⟨hlen, by omega, by omega⟩

/-- Settles O53: the parse reads the emitted entries back one by one. -/
theorem headerParsesBack : Obligations.HeaderParsesBack := by
  intro s t hs h ht
  obtain ⟨hn, rfl⟩ := exec_build_packing hs h ht
  have hlen := toNat_buildResult_headerLen (tree := (treeBuild s.freq).1) (s := s) (codeLen_codeOf_le s.freq)
  refine ⟨_, buildResult_out, hlen.symm, fun rest => ?_⟩
  rw [hlen]
  exact parseHeader_headerBytes hn (BitVec.isLt _) rest

end SettledHeader
end Sys2Proof.Laws

namespace Sys2Proof.Laws

open Sys2Proof.Machine

/-! SUPPORT. Every step answers (spec/60_exceptions.md section 2), and the host's command writes are performed one a step
(spec/20_memory.md R68, R70). -/

section StepsAnswer
variable {s t : State} {w : Word} {c : Instr} {cs : List Instr} {rest : List HostAction}

/-- R341: with no host action pending the block waits. -/
theorem step_waits (h : s.hostQueue = []) : step s = .next s := by
  simp only [step, takeAction, h]

theorem dispatchWord_answers (w : Word) (s : State) : ∃ t, dispatchWord w s = .next t := by
  cases hd : decode w with
  | command c =>
    rw [dispatchWord_command hd]
    exact exec_answers c s
  | illegal why =>
    rw [dispatchWord_illegal hd, rejectWord]
    split <;> exact ⟨_, rfl⟩

theorem busWrite_answers (off : Offset) (size : Nat) (value : Word) (s : State) :
    ∃ t, busWrite off size value s = .next t := by
  unfold busWrite
  split
  · split
    · exact dispatchWord_answers value _
    · exact ⟨_, rfl⟩
  · exact ⟨_, rfl⟩

theorem busRead_answers (off : Offset) (size : Nat) (s : State) : ∃ t, busRead off size s = .next t := by
  unfold busRead
  split <;> exact ⟨_, rfl⟩

theorem step_answers (s : State) : ∃ t, step s = .next t := by
  match hq : s.hostQueue with
  | [] => exact ⟨s, step_waits hq⟩
  | .read off size :: rest =>
    rw [step_busRead hq]
    exact busRead_answers off size _
  | .write off size value :: rest =>
    rw [step_busWrite hq]
    exact busWrite_answers off size value _
  | .reset :: rest => exact ⟨_, step_reset hq⟩

/-- R63, R120: a pending write of a command's word to CMD is performed. -/
theorem step_command (hq : s.hostQueue = .write 0x000#12 4 w :: rest) (hw : decode w = .command c) :
    step s = exec c (taken rest s) := by
  rw [step_write hq rfl, if_pos rfl, dispatchWord_command hw]

/-- The host's next command write is performed with the ones after it left in the queue. -/
theorem step_commandWrite (hq : s.hostQueue = (c :: cs).map commandWrite ++ rest) :
    step s = exec c (taken (cs.map commandWrite ++ rest) s) :=
  step_command hq (decode_encode c)

/-- withFetchWord places the very word. -/
theorem withFetchWord_hostQueue (s : State) (w : Word) :
    (s.withFetchWord 32 w.toNat).hostQueue = .write 0x000#12 4 w :: s.hostQueue := by
  rw [withFetchWord_frame, Nat.mod_eq_of_lt w.isLt, BitVec.ofNat_toNat, BitVec.setWidth_eq]

theorem core_step : Host.Core.step Sys2Proof.core = step := rfl

theorem run_succ_of_step {k : Nat} (h : step s = .next t) :
    Host.Core.run Sys2Proof.core (k + 1) s = Host.Core.run Sys2Proof.core k t := by
  simp only [Host.Core.run, core_step, h]

/-- The state after commands whose writes the host placed one after the other, with these writes off the queue. -/
theorem run_commandWrites (h : runCommands cs s = .next t) :
    Host.Core.run Sys2Proof.core cs.length (taken (cs.map commandWrite ++ rest) s) = .next (taken rest t) := by
  induction cs generalizing s with
  | nil => cases h; rfl
  | cons c cs ih =>
    obtain ⟨u, hu⟩ := exec_answers c s
    have hstep : step (taken ((c :: cs).map commandWrite ++ rest) s) = .next (taken (cs.map commandWrite ++ rest) u) :=
      (step_commandWrite (rest := rest) rfl).trans (exec_host (s := s) _ _ hu)
    rw [runCommands_cons hu] at h
    rw [List.length_cons, run_succ_of_step hstep]
    exact ih h

end StepsAnswer

/-! SUPPORT. The totals' halves and the registers of a block just reset (spec/10_state.md R34). -/

section RegisterHalves

/-- A 64-bit total in its HI and LO halves. -/
theorem halves_eq_toNat (x : DWord) :
    (x.extractLsb' 32 32).toNat * 2 ^ 32 + (x.extractLsb' 0 32).toNat = x.toNat := by
  have := x.isLt
  simp only [BitVec.extractLsb'_toNat, Nat.shiftRight_eq_div_pow]
  omega

theorem toNat_ofNat_nsym (freq : Table Word) : (BitVec.ofNat 32 (nsym freq)).toNat = nsym freq := by
  have := nsym_le freq
  rw [BitVec.toNat_ofNat, Nat.mod_eq_of_lt (by omega)]

/-- R34, R43: in IDLE with the run cleared every register reads 0 but ID. -/
theorem readRegister_cleared {s : State} (h : RunCleared s) (hs : s.phase = .idle) (off : Offset) :
    readRegister off s = if off = 0x034#12 then Config.idWord else 0 := by
  obtain ⟨htotal, hbytes, hpadding, hheader, hpacked⟩ := h.totals
  obtain ⟨hcode, hphase, hcmd⟩ := h.errors
  have hstatus : statusWord s = 0 := by
    simp [statusWord, bitCount, flagDone, flagErr, hs, h.bitBuf, Phase.bits]
  have hinfo : errInfoWord s = 0 := by simp [errInfoWord, hcode, hphase, ErrCode.bits, Phase.bits]
  have hlen : codeLen s.code (windowIndex off) = 0 := congrArg List.length (h.code _)
  by_cases hid : off = 0x034#12
  · rw [if_pos hid, hid]
    rfl
  · simp only [readRegister, hstatus, hinfo, hcmd, h.origSize, (nsym_eq_zero_iff _).2 h.freq, htotal, hbytes, hpadding,
      hheader, hpacked, h.freq, hlen, hid, if_false]
    simp

end RegisterHalves

/-! SUPPORT. The assembler on a byte written in hexadecimal (spec/30_encoding.md R96). -/

section HexText

theorem hexDigit_hexChar : ∀ n < 16, hexDigit (hexChar n) = some n := by decide

/-- Two digits are read back, high digit first. -/
theorem takeNumeral_hex {h l : Nat} (hh : h < 16) (hl : l < 16) :
    takeNumeral hexDigit 16 [hexChar h, hexChar l] = some (BitVec.ofNat 8 (h * 16 + l), []) := by
  have : h * 16 + l < 256 := by omega
  simp only [takeNumeral, takeDigits, hexDigit_hexChar h hh, hexDigit_hexChar l hl, this, if_true]

theorem takeByte_hexText (d : Byte) : takeByte (hexText d) = some (d, []) := by
  have hd := d.isLt
  have h := takeNumeral_hex (h := d.toNat / 16) (l := d.toNat % 16) (by omega) (by omega)
  rw [Nat.div_add_mod', BitVec.ofNat_toNat, BitVec.setWidth_eq] at h
  exact h

/-- The operand of COUNT and PACK, with the space before it. -/
theorem wholeOperand_hexText (d : Byte) : wholeOperand takeByte (' ' :: hexText d) = some d := by
  have hskip : skipSpaces (' ' :: hexText d) = hexText d := rfl
  rw [wholeOperand, hskip, takeByte_hexText]
  rfl

end HexText

/-! The statements of spec/20_memory.md, spec/10_state.md and spec/30_encoding.md about steps, registers and the
assembler. -/

section SettledSteps

/-- Settles O6: a write to CMD is dispatched, and its word decoded. -/
theorem stepRunsDecodedCommand : Obligations.StepRunsDecodedCommand :=
  ⟨fun _ _ _ _ hq hw => step_command hq hw, fun s w _ hw => step_command (withFetchWord_hostQueue s w) hw⟩

/-- Settles O7: the empty queue's branch of a step. -/
theorem stepWaitsWithNothingPending : Obligations.StepWaitsWithNothingPending :=
  fun _ h => step_waits h

/-- Settles O8: each kind of host action answers. -/
theorem everyStepAnswersNext : Obligations.EveryStepAnswersNext := step_answers

/-- Settles O13: the first step, and then `run_commandWrites`, with the bus's answer to it recorded. -/
theorem hostWritesArePerformedInOrder : Obligations.HostWritesArePerformedInOrder := by
  intro cs s rest hne hq
  obtain ⟨t, ht⟩ := runCommands_answers cs s
  refine ⟨t, ht, ?_⟩
  cases cs with
  | nil => exact absurd rfl hne
  | cons c cs =>
    obtain ⟨u, hu⟩ := exec_answers c s
    have hstep : step s = .next (taken (cs.map commandWrite ++ rest) u) :=
      (step_commandWrite hq).trans (exec_host (s := s) _ _ hu)
    rw [runCommands_cons hu] at ht
    rw [List.length_cons, run_succ_of_step hstep]
    exact run_commandWrites ht

/-- Settles O15: the reset state is cleared, and in IDLE. -/
theorem resetRegistersRead : Obligations.ResetRegistersRead :=
  readRegister_cleared runCleared_reset rfl

/-- Settles O16: each register's own element, NSYM as a cardinality, and the totals from their halves. -/
theorem registerMapReads : Obligations.RegisterMapReads := by
  refine fun s => ⟨rfl, rfl, ?_, halves_eq_toNat s.totalBits, halves_eq_toNat s.payloadBytes, ?_, rfl, rfl, rfl⟩
  · rw [readRegister_nsym, toNat_ofNat_nsym, nsym_eq_card]
  · have := s.padding.isLt
    rw [readRegister_padding, BitVec.toNat_setWidth, Nat.mod_eq_of_lt (by omega)]

/-- Settles O5: the mnemonic is read first, then the operand. -/
theorem assemblerReadsCommandText : Obligations.AssemblerReadsCommandText := by
  intro c
  cases c with
  | count d => exact congrArg (Option.map fun d => [Instr.count d]) (wholeOperand_hexText d)
  | pack d => exact congrArg (Option.map fun d => [Instr.pack d]) (wholeOperand_hexText d)
  | _ => decide

end SettledSteps
end Sys2Proof.Laws

namespace Sys2Proof.Laws

open Sys2Proof.Machine

/-! SUPPORT. FINISH in PACKING, with every byte presented and with some missing (spec/45_bit_packer.md R253). -/

section Finishing
variable {s : State}

/-- R121: FINISH's row of the legality table. -/
theorem legal_finish_iff {p : Phase} : legal .finish p = true ↔ p = .packing := by
  simp [legal]

/-- R253: with every counted byte presented FINISH pushes the padding and ends the run. -/
theorem exec_finish (hs : s.phase = .packing) (h : s.packedIn = s.origSize) :
    exec .finish s = .next { push (zeros s.padding.toNat) s with phase := .done } :=
  (exec_eq_perform _ s).trans
    (perform_ok (.inl (by simp [hs])) (legal_finish_iff.2 hs) (finishBody_ok.2 ⟨h, rfl⟩))

/-- R253: with some missing FINISH raises INPUT_MISMATCH on the state before it. -/
theorem exec_finish_mismatch (hs : s.phase = .packing) (h : s.packedIn ≠ s.origSize) :
    exec .finish s = .next (raiseError .inputMismatch (encode .finish) s) :=
  (exec_eq_perform _ s).trans
    (perform_error (by simp [hs]) (legal_finish_iff.2 hs) (finishBody_error.2 ⟨h, rfl⟩))

end Finishing

/-! SUPPORT. The phase each command leads to from outside ERROR (spec/40_command_control.md section 5). -/

section PhaseMoves
variable {c : Instr} {s t : State}

/-- R125: the row of the phase transition table for a command performed outside ERROR. -/
def phaseAfter (c : Instr) (s : State) : Phase :=
  match c with
  | .nop => s.phase
  | .start => .counting
  | .ioerr => .error
  | .count _ => if s.phase = .counting ∧ s.origSize ≠ 0xFFFFFFFF#32 then .counting else .error
  | .build => if s.phase = .counting ∧ nsym s.freq ≠ 0 then .packing else .error
  | .pack d => if s.phase = .packing ∧ readAt s.remain d ≠ 0 then .packing else .error
  | .finish => if s.phase = .packing ∧ s.packedIn = s.origSize then .done else .error

/-- A command legal in one phase only completes there if its condition holds, and leads to ERROR otherwise. -/
theorem phase_of_one_phase {p next : Phase} {cond : Prop} [Decidable cond] (hs : s.phase ≠ .error)
    (hl : legal c s.phase = true ↔ s.phase = p) (hok : s.phase = p → cond → ∃ t, exec c s = .next t ∧ t.phase = next)
    (herr : s.phase = p → ¬ cond → ∃ t, exec c s = .next t ∧ t.phase = .error) :
    ∃ t, exec c s = .next t ∧ t.phase = if s.phase = p ∧ cond then next else .error := by
  by_cases hp : s.phase = p
  · by_cases hc : cond
    · simpa only [hp, hc, and_self, if_true] using hok hp hc
    · simpa only [hc, and_false, if_false] using herr hp hc
  · refine ⟨_, exec_illegal hs (Bool.eq_false_iff.2 (hl.not.2 hp)), ?_⟩
    rw [if_neg fun h => hp h.1, raiseError_phase]

theorem exec_phase (c : Instr) (hs : s.phase ≠ .error) : ∃ t, exec c s = .next t ∧ t.phase = phaseAfter c s := by
  cases c with
  | nop => exact ⟨s, exec_nop s, rfl⟩
  | start => exact ⟨_, exec_start s, rfl⟩
  | count d =>
    exact phase_of_one_phase hs legal_count_iff (fun hp hc => ⟨_, exec_count hp hc, hp⟩)
      fun hp hc => ⟨_, exec_count_overflow hp (not_not.1 hc), rfl⟩
  | build =>
    exact phase_of_one_phase hs legal_build_iff (fun hp hc => ⟨_, exec_build hp hc, rfl⟩)
      fun hp hc => ⟨_, exec_build_empty hp (not_not.1 hc), rfl⟩
  | pack d =>
    exact phase_of_one_phase hs legal_pack_iff (fun hp hc => ⟨_, exec_pack hp hc, hp⟩)
      fun hp hc => ⟨_, exec_pack_mismatch hp (not_not.1 hc), rfl⟩
  | finish =>
    exact phase_of_one_phase hs legal_finish_iff (fun hp hc => ⟨_, exec_finish hp hc, rfl⟩)
      fun hp hc => ⟨_, exec_finish_mismatch hp hc, rfl⟩
  | ioerr => exact ⟨_, exec_ioerr hs, rfl⟩

end PhaseMoves

/-! SUPPORT. The error record, step by step (spec/60_exceptions.md R300). -/

section ErrorRecords
variable {c : Instr} {s t : State} {code : ErrCode} {rest : List HostAction}

/-- R300: an error entry made by a legal command's own effect records what the table says. -/
theorem errorRecord_of_effect (hl : legal c s.phase = true) (he : effect c s = .error code) :
    ErrorRecord (raiseError code (encode c) s) := by
  rcases effect_error_cases he with ⟨rfl, rfl⟩ | ⟨rfl, rfl⟩ | ⟨rfl | ⟨d, rfl⟩, rfl⟩ | ⟨d, rfl, rfl⟩
  · exact ⟨legal_build_iff.1 hl, rfl⟩
  · exact (rfl : encode .ioerr = 0x00000600#32)
  · exact ⟨legal_finish_iff.1 hl, .inl rfl⟩
  · exact ⟨legal_pack_iff.1 hl, .inr ⟨d, rfl⟩⟩
  · exact ⟨legal_count_iff.1 hl, d, rfl⟩

/-- A state with the same record is as consistent. -/
theorem errorRecord_of_record_eq (h : ErrorRecord s)
    (hr : t.errCode = s.errCode ∧ t.errPhase = s.errPhase ∧ t.errCmd = s.errCmd) : ErrorRecord t := by
  obtain ⟨hcode, hphase, hcmd⟩ := hr
  rw [ErrorRecord, hcode, hphase, hcmd]
  exact h

theorem errorRecord_startRun (s : State) : ErrorRecord (startRun s) := trivial

theorem errorRecord_resetBlock (s : State) : ErrorRecord (resetBlock s) := trivial

theorem exec_keeps_errorRecord (hs : ErrorRecord s) (h : exec c s = .next t) : ErrorRecord t := by
  rcases exec_cases h with ⟨-, -, rfl⟩ | ⟨code, -, -, rfl, ⟨hl, rfl⟩ | ⟨hl, he⟩⟩ | ⟨-, hok, -⟩
  · exact hs
  · exact .inr ⟨c, decode_encode c, hl⟩
  · exact errorRecord_of_effect hl he
  · rcases effect_ok_record hok with rfl | hr
    · exact errorRecord_startRun s
    · exact errorRecord_of_record_eq hs hr

theorem step_keeps_errorRecord (hs : ErrorRecord s) (h : step s = .next t) : ErrorRecord t := by
  rcases step_cases h with
    ⟨-, rfl⟩ | ⟨rest, -, rfl⟩ | ⟨_, _, _, -, rfl⟩ | ⟨w, rest, -, hw, -, rfl⟩ | ⟨w, rest, c, -, -, he⟩
  · exact hs
  · exact errorRecord_resetBlock _
  · exact errorRecord_of_record_eq hs ⟨rfl, rfl, rfl⟩
  · exact .inl hw
  · exact exec_keeps_errorRecord (s := taken rest s) (errorRecord_of_record_eq hs ⟨rfl, rfl, rfl⟩) he

end ErrorRecords

/-! SUPPORT. What a command emits (spec/20_memory.md R73). -/

section Emitting
variable {c : Instr} {s t : State}

/-- The commands that emit. -/
def Emits (c : Instr) : Prop := c = .build ∨ c = .finish ∨ ∃ d, c = .pack d

/-- An effect that completes appends to OUT, and only BUILD's, PACK's and FINISH's append a byte. -/
theorem effect_ok_out (h : effect c s = .ok t) : ∃ bytes, t.out = s.out ++ bytes ∧ (bytes ≠ [] → Emits c) := by
  have silent (hout : t.out = s.out) : ∃ bytes, t.out = s.out ++ bytes ∧ (bytes ≠ [] → Emits c) :=
    ⟨[], by simp [hout], fun hne => absurd rfl hne⟩
  cases c with
  | nop => cases h; exact silent rfl
  | start => cases h; exact silent rfl
  | count d => obtain ⟨-, rfl⟩ := countBody_ok.1 h; exact silent rfl
  | build => obtain ⟨-, -, -, rfl⟩ := buildBody_ok.1 h; exact ⟨_, buildResult_out, fun _ => .inl rfl⟩
  | pack d => obtain ⟨-, rfl⟩ := packBody_ok.1 h; exact ⟨_, rfl, fun _ => .inr (.inr ⟨d, rfl⟩)⟩
  | finish => obtain ⟨-, rfl⟩ := finishBody_ok.1 h; exact ⟨_, rfl, fun _ => .inr (.inl rfl)⟩
  | ioerr => cases h

theorem exec_out (h : exec c s = .next t) : ∃ bytes, t.out = s.out ++ bytes ∧ (bytes ≠ [] → Emits c) := by
  rcases exec_cases h with ⟨-, -, rfl⟩ | ⟨code, -, -, rfl, -⟩ | ⟨-, hok, -⟩
  · exact ⟨[], by simp⟩
  · exact ⟨[], by simp⟩
  · exact effect_ok_out hok

end Emitting

/-! SUPPORT. What pass 2 leaves as BUILD made it (spec/10_state.md section 2). -/

section TablesKept
variable {c : Instr} {s t : State}

/-- The counts, the code, the tree and the totals are the same. -/
def TablesKept (s t : State) : Prop :=
  t.freq = s.freq ∧ t.origSize = s.origSize ∧ t.code = s.code ∧ t.tree = s.tree ∧ t.totalBits = s.totalBits ∧
    t.payloadBytes = s.payloadBytes ∧ t.padding = s.padding ∧ t.headerLen = s.headerLen

theorem tablesKept_refl (s : State) : TablesKept s s := ⟨rfl, rfl, rfl, rfl, rfl, rfl, rfl, rfl⟩

/-- A command other than START, in a phase where COUNT and BUILD are not legal. -/
theorem exec_keeps_tables (hs : s.phase ≠ .counting) (hc : c ≠ .start) (h : exec c s = .next t) : TablesKept s t := by
  rcases exec_cases h with ⟨-, -, rfl⟩ | ⟨code, -, -, rfl, -⟩ | ⟨hl, hok, -⟩
  · exact tablesKept_refl t
  · exact tablesKept_refl s
  · cases c with
    | nop => cases hok; exact tablesKept_refl s
    | start => exact absurd rfl hc
    | count d => exact absurd (legal_count_iff.1 hl) hs
    | build => exact absurd (legal_build_iff.1 hl) hs
    | pack d => obtain ⟨-, rfl⟩ := packBody_ok.1 hok; exact tablesKept_refl s
    | finish => obtain ⟨-, rfl⟩ := finishBody_ok.1 hok; exact tablesKept_refl s
    | ioerr => cases hok

end TablesKept

/-! The statements about phases, error records, OUT and the tables. -/

section SettledFrames

/-- Settles O33: in ERROR only START is performed, and elsewhere `exec_phase` gives the row. -/
theorem phaseMovesOnlyByTable : Obligations.PhaseMovesOnlyByTable := by
  intro c s
  by_cases hs : s.phase = .error
  · by_cases hc : c = .start
    · subst hc
      exact ⟨_, exec_start s, fun _ => rfl, fun h => absurd hs h⟩
    · exact ⟨s, exec_ignored hs hc, fun _ => hs.trans (if_neg hc).symm, fun h => absurd hs h⟩
  · obtain ⟨t, ht, hp⟩ := exec_phase c hs
    exact ⟨t, ht, fun h => absurd h hs, fun _ => by cases c <;> exact hp⟩

/-- Settles O36: every entry records what its cause says, and nothing but START and reset writes the record else. -/
theorem errorRecordKept : Obligations.ErrorRecordKept :=
  ⟨errorRecord_resetBlock State.reset, fun _ _ => step_keeps_errorRecord⟩

/-- Settles O37: no step but a command's appends, and of these the three that emit. -/
theorem outIsAppendOnly : Obligations.OutIsAppendOnly := by
  intro s t h
  rcases step_cases h with
    ⟨-, rfl⟩ | ⟨rest, -, rfl⟩ | ⟨_, _, _, -, rfl⟩ | ⟨w, rest, -, -, -, rfl⟩ | ⟨w, rest, c, hq, hw, he⟩
  · exact ⟨[], by simp⟩
  · exact ⟨[], by simp⟩
  · exact ⟨[], by simp⟩
  · exact ⟨[], by simp [taken]⟩
  · obtain ⟨bytes, hout, hemits⟩ := exec_out he
    exact ⟨bytes, hout, fun hne => ⟨w, rest, c, hq, hw, hemits hne⟩⟩

/-- Settles O38: past COUNTING the only commands that complete and write the tables are START's. -/
theorem tablesFrozenAfterBuild : Obligations.TablesFrozenAfterBuild := by
  intro s t _ hs h hreset hstart
  rcases step_cases h with
    ⟨-, rfl⟩ | ⟨rest, hq, -⟩ | ⟨_, _, _, -, rfl⟩ | ⟨w, rest, -, -, -, rfl⟩ | ⟨w, rest, c, hq, hw, he⟩
  · exact tablesKept_refl t
  · exact absurd hq (hreset rest)
  · exact tablesKept_refl s
  · exact tablesKept_refl s
  · have hc : c ≠ .start := by
      rintro rfl
      obtain rfl := encode_of_decode hw
      exact hstart rest hq
    exact exec_keeps_tables (s := taken rest s) hs hc he

end SettledFrames
end Sys2Proof.Laws

namespace Sys2Proof.Laws

open Sys2Proof.Machine

/-! SUPPORT. The invariant (spec/10_state.md R44) where a command leaves most of the state alone, and what it comes to in
each phase. A premise `t = …` says which elements a state may differ in. -/

section InvariantByPhase
variable {s t : State} {code : ErrCode} {w : Word}

theorem fresh_of_frame (h : Fresh s) (ht : t = { s with
    phase := t.phase, freq := t.freq, origSize := t.origSize, errCode := t.errCode, errPhase := t.errPhase
    errCmd := t.errCmd, hostQueue := t.hostQueue, busResponse := t.busResponse }) : Fresh t := by
  rw [ht]
  exact ⟨h.code, h.remain, h.tree, h.totals, h.buffer⟩

/-- R44 item 4 after some of pass 2: only REMAIN and PACKED_IN bear on it. -/
theorem built_of_pass_two (h : Built s) (ht : t = { s with
    phase := t.phase, remain := t.remain, packedIn := t.packedIn, bitBuf := t.bitBuf, errCode := t.errCode
    errPhase := t.errPhase, errCmd := t.errCmd, out := t.out, hostQueue := t.hostQueue, busResponse := t.busResponse })
    (howed : ∀ b, (readAt t.remain b).toNat ≤ (readAt t.freq b).toNat)
    (hpacked : t.packedIn.toNat = sumBytes (packedOf t)) : Built t := by
  rw [ht] at howed hpacked ⊢
  exact ⟨h.symbols, h.tree, h.code, h.domain, h.lengths, h.total, h.wholeBytes, h.header, howed, hpacked⟩

theorem built_of_frame (h : Built s) (ht : t = { s with
    phase := t.phase, bitBuf := t.bitBuf, errCode := t.errCode, errPhase := t.errPhase, errCmd := t.errCmd
    out := t.out, hostQueue := t.hostQueue, busResponse := t.busResponse }) : Built t := by
  rw [ht]
  exact built_of_pass_two h rfl h.owed h.packed

theorem stage_eq_phase (hs : s.phase ≠ .error) : stage s = s.phase := if_neg hs

/-- The host's actions and the bus's answer have no part in the invariant. -/
theorem inv_host (h : Inv s) (q : List HostAction) (r : Option BusResponse) :
    Inv { s with hostQueue := q, busResponse := r } where
  counted := h.counted
  buffer := h.buffer
  fresh hs := fresh_of_frame (h.fresh hs) rfl
  built hs := built_of_frame (h.built hs) rfl
  bits := h.bits
  finished := h.finished
  failed := h.failed
  clean := h.clean

/-- R44 item 6: an error entry keeps what holds of the phase the run had reached. -/
theorem inv_raiseError (h : Inv s) (hs : s.phase ≠ .error) (hcode : code ≠ .noError) : Inv (raiseError code w s) := by
  have hst : stage (raiseError code w s) = stage s := by simp [stage, hs]
  exact {
    counted := h.counted
    buffer := h.buffer
    fresh := fun hp => fresh_of_frame (h.fresh (hst ▸ hp)) rfl
    built := fun hp => built_of_frame (h.built (hst ▸ hp)) rfl
    bits := fun hp => h.bits (hst ▸ hp)
    finished := fun hp => h.finished (hst ▸ hp)
    failed := fun _ => ⟨hcode, hs⟩
    clean := fun hp => absurd (raiseError_phase code w s) hp }

/-- R44 items 1 and 3: the invariant before BUILD. -/
theorem inv_before_build (hs : s.phase = .idle ∨ s.phase = .counting)
    (hcounted : sumBytes (fun b => (readAt s.freq b).toNat) = s.origSize.toNat) (hfresh : Fresh s)
    (hclean : s.errCode = .noError ∧ s.errPhase = .idle ∧ s.errCmd = 0) : Inv s := by
  have hne : s.phase ≠ .error := by rcases hs with hs | hs <;> simp [hs]
  have hst : stage s = .idle ∨ stage s = .counting := stage_eq_phase hne ▸ hs
  have hpacking : stage s ≠ .packing := by rcases hst with hst | hst <;> simp [hst]
  have hdone : stage s ≠ .done := by rcases hst with hst | hst <;> simp [hst]
  exact {
    counted := hcounted
    buffer := by simp [hfresh.buffer]
    fresh := fun _ => hfresh
    built := fun hp => absurd hp (not_or.2 ⟨hpacking, hdone⟩)
    bits := fun hp => absurd hp hpacking
    finished := fun hp => absurd hp hdone
    failed := fun hp => absurd hp hne
    clean := fun _ => hclean }

/-- R44 items 1 and 4: the invariant in PACKING. -/
theorem inv_in_packing (hs : s.phase = .packing)
    (hcounted : sumBytes (fun b => (readAt s.freq b).toNat) = s.origSize.toNat) (hbuilt : Built s)
    (hbits : s.bitBuf.length = sumBytes (fun b => packedOf s b * codeLen s.code b) % 8)
    (hclean : s.errCode = .noError ∧ s.errPhase = .idle ∧ s.errCmd = 0) : Inv s := by
  have hst : stage s = .packing := (stage_eq_phase (by simp [hs])).trans hs
  exact {
    counted := hcounted
    buffer := by omega
    fresh := fun hp => by simp [hst] at hp
    built := fun _ => hbuilt
    bits := fun _ => hbits
    finished := fun hp => by simp [hst] at hp
    failed := fun hp => by simp [hs] at hp
    clean := fun _ => hclean }

/-- R44 items 1 and 5: the invariant in DONE. -/
theorem inv_in_done (hs : s.phase = .done)
    (hcounted : sumBytes (fun b => (readAt s.freq b).toNat) = s.origSize.toNat) (hbuilt : Built s)
    (hfinished : (∀ b, readAt s.remain b = 0) ∧ s.packedIn = s.origSize ∧ s.bitBuf = [])
    (hclean : s.errCode = .noError ∧ s.errPhase = .idle ∧ s.errCmd = 0) : Inv s := by
  have hst : stage s = .done := (stage_eq_phase (by simp [hs])).trans hs
  exact {
    counted := hcounted
    buffer := by simp [hfinished.2.2]
    fresh := fun hp => by simp [hst] at hp
    built := fun _ => hbuilt
    bits := fun hp => by simp [hst] at hp
    finished := fun _ => hfinished
    failed := fun hp => by simp [hs] at hp
    clean := fun _ => hclean }

/-- R43: a cleared run meets the invariant before BUILD. -/
theorem inv_of_runCleared (h : RunCleared s) (hs : s.phase = .idle ∨ s.phase = .counting) : Inv s :=
  inv_before_build hs (by simp [h.freq, h.origSize]) ⟨h.code, h.remain, h.tree, h.totals, h.bitBuf⟩ h.errors

/-- R44 item 3 in COUNTING. -/
theorem fresh_of_counting (h : Inv s) (hs : s.phase = .counting) : Fresh s :=
  h.fresh (.inr ((stage_eq_phase (by simp [hs])).trans hs))

/-- R44 item 4 in PACKING. -/
theorem built_of_packing (h : Inv s) (hs : s.phase = .packing) : Built s :=
  h.built (.inl ((stage_eq_phase (by simp [hs])).trans hs))

/-- R44 item 4 in PACKING: the law of BITBUF's length. -/
theorem bits_of_packing (h : Inv s) (hs : s.phase = .packing) :
    s.bitBuf.length = sumBytes (fun b => packedOf s b * codeLen s.code b) % 8 :=
  h.bits ((stage_eq_phase (by simp [hs])).trans hs)

/-- R44 item 1: all counts together fit 32 bits. -/
theorem counts_le_of_inv (h : Inv s) : sumBytes (fun b => (readAt s.freq b).toNat) ≤ 2 ^ 32 - 1 :=
  h.counted.trans_le (Nat.le_sub_one_of_lt s.origSize.isLt)

end InvariantByPhase

/-! SUPPORT. COUNT under the invariant (spec/10_state.md section 6). -/

section CountKeepsInvariant
variable {s : State}

theorem toNat_lt_of_ne_max {x : Word} (h : x ≠ Config.maxInputLen) : x.toNat < 2 ^ 32 - 1 := by
  have hx := x.isLt
  have hne : x.toNat ≠ Config.maxInputLen.toNat := fun he => h (BitVec.eq_of_toNat_eq he)
  simp only [Config.maxInputLen, BitVec.toNat_ofNat] at hne
  omega

theorem toNat_add_one {x : Word} (h : x.toNat < 2 ^ 32 - 1) : (x + 1).toNat = x.toNat + 1 := by
  rw [BitVec.toNat_add]
  exact Nat.mod_eq_of_lt (by simp only [BitVec.ofNat_eq_ofNat, BitVec.toNat_ofNat]; omega)

/-- R45: below the limit both of COUNT's additions are exact, as no count exceeds ORIG_SIZE. -/
theorem count_exact (h : Inv s) (hlim : s.origSize ≠ Config.maxInputLen) (d : Byte) :
    (readAt s.freq d + 1).toNat = (readAt s.freq d).toNat + 1 ∧ (s.origSize + 1).toNat = s.origSize.toNat + 1 := by
  have hmax := toNat_lt_of_ne_max hlim
  have hfreq := (le_sumBytes (fun b => (readAt s.freq b).toNat) d).trans_eq h.counted
  exact ⟨toNat_add_one (hfreq.trans_lt hmax), toNat_add_one hmax⟩

theorem inv_count (h : Inv s) (hs : s.phase = .counting) (hlim : s.origSize ≠ Config.maxInputLen) (d : Byte) :
    Inv { s with freq := writeAt s.freq d (readAt s.freq d + 1), origSize := s.origSize + 1 } := by
  obtain ⟨hfreq, hsize⟩ := count_exact h hlim d
  refine inv_before_build (.inr hs) ?_ (fresh_of_frame (fresh_of_counting h hs) rfl) (h.clean (by simp [hs]))
  have hsum := sumBytes_change (f := fun b => (readAt (writeAt s.freq d (readAt s.freq d + 1)) b).toNat)
    (g := fun b => (readAt s.freq b).toNat) d fun b hb => by simp [hb]
  have hcounted := h.counted
  simp only [readAt_writeAt, if_true] at hsum ⊢
  omega

end CountKeepsInvariant

/-! SUPPORT. BUILD under the invariant (spec/43_code_table_generator.md R204 to R206). -/

section BuildKeepsInvariant
variable {s : State}

/-- R206: the payload's bytes hold the code bits and the padding, exactly. -/
theorem payloadBytesFor_mul_eight (total : Nat) : payloadBytesFor total * 8 = total + paddingFor total := by
  unfold payloadBytesFor paddingFor
  omega

/-- BUILD owes every counted byte. -/
theorem packedOf_buildResult (tree : List Node) (code : Table Bits) (s : State) (b : Byte) :
    packedOf (buildResult tree code s) b = 0 := Nat.sub_self _

theorem built_buildResult (hn : nsym s.freq ≠ 0) (hp : s.packedIn = 0) :
    Built (buildResult (treeBuild s.freq).1 (codeOf s.freq) s) := by
  have hlen := codeLen_codeOf_le s.freq
  have htotal := toNat_buildResult_totalBits (tree := (treeBuild s.freq).1) (s := s) hlen
  exact {
    symbols := Nat.one_le_iff_ne_zero.2 hn
    tree := rfl
    code := rfl
    domain := fun _ => codeOf_ne_nil_iff
    lengths := hlen
    total := htotal
    wholeBytes := by
      rw [htotal, toNat_buildResult_payloadBytes hlen, toNat_buildResult_padding, payloadBytesFor_mul_eight]
    header := buildResult_headerLen s _
    owed := fun _ => le_rfl
    packed := by
      simp only [funext (packedOf_buildResult _ _ s), sumBytes_zero]
      exact congrArg BitVec.toNat hp }

theorem inv_build (h : Inv s) (hs : s.phase = .counting) (hn : nsym s.freq ≠ 0) :
    Inv (buildResult (treeBuild s.freq).1 (codeOf s.freq) s) := by
  have hfresh := fresh_of_counting h hs
  obtain ⟨-, -, -, -, hpacked⟩ := hfresh.totals
  refine inv_in_packing rfl h.counted (built_buildResult hn hpacked) ?_ (h.clean (by simp [hs]))
  simp only [packedOf_buildResult, Nat.zero_mul, sumBytes_zero]
  exact congrArg List.length hfresh.buffer

end BuildKeepsInvariant

/-! SUPPORT. PACK and FINISH under the invariant (spec/45_bit_packer.md R252, R253). -/

section PackKeepsInvariant
variable {d : Byte} {s : State}

/-- R252: the state PACK leaves. -/
def packNext (d : Byte) (s : State) : State :=
  push (readAt s.code d)
    { s with remain := writeAt s.remain d (readAt s.remain d - 1), packedIn := s.packedIn + 1 }

@[simp] theorem packNext_freq (d : Byte) (s : State) : (packNext d s).freq = s.freq := rfl
@[simp] theorem packNext_code (d : Byte) (s : State) : (packNext d s).code = s.code := rfl
@[simp] theorem packNext_packedIn (d : Byte) (s : State) : (packNext d s).packedIn = s.packedIn + 1 := rfl
@[simp] theorem packNext_remain (d : Byte) (s : State) :
    (packNext d s).remain = writeAt s.remain d (readAt s.remain d - 1) := rfl

/-- R250, R252: what PACK emits and what it leaves in BITBUF. -/
theorem packNext_spec (d : Byte) (s : State) :
    ∃ bytes, (packNext d s).out = s.out ++ bytes ∧
      bytes.flatMap byteBits ++ (packNext d s).bitBuf = s.bitBuf ++ readAt s.code d ∧
      bytes.length = (s.bitBuf.length + codeLen s.code d) / 8 ∧
      (packNext d s).bitBuf.length = (s.bitBuf.length + codeLen s.code d) % 8 :=
  push_spec _ _

theorem exec_packNext (hs : s.phase = .packing) (hd : readAt s.remain d ≠ 0) :
    exec (.pack d) s = .next (packNext d s) := exec_pack hs hd

theorem toNat_sub_one {x : Word} (h : x ≠ 0) : (x - 1).toNat + 1 = x.toNat := by
  have hx := x.isLt
  have hpos : x.toNat ≠ 0 := fun he => h (BitVec.eq_of_toNat_eq he)
  have hone : (1 : Word).toNat = 1 := rfl
  rw [BitVec.toNat_sub, hone]
  omega

theorem toNat_remain_packNext (hd : readAt s.remain d ≠ 0) (b : Byte) :
    (readAt (packNext d s).remain b).toNat + (if b = d then 1 else 0) = (readAt s.remain b).toNat := by
  have hsub := toNat_sub_one hd
  by_cases hb : b = d
  · subst hb
    simpa using hsub
  · simp [hb]

/-- PACK presents one more d. -/
theorem packedOf_packNext (hd : readAt s.remain d ≠ 0) (howed : (readAt s.remain d).toNat ≤ (readAt s.freq d).toNat)
    (b : Byte) : packedOf (packNext d s) b = packedOf s b + if b = d then 1 else 0 := by
  have hremain := toNat_remain_packNext hd b
  rw [packedOf, packedOf, packNext_freq]
  by_cases hb : b = d
  · subst hb
    simp only [if_true] at hremain ⊢
    omega
  · simp only [hb, if_false] at hremain ⊢
    omega

/-- So a sum over the bytes presented gains d's term. -/
theorem sum_packedOf_packNext (hd : readAt s.remain d ≠ 0)
    (howed : (readAt s.remain d).toNat ≤ (readAt s.freq d).toNat) (f : Byte → Nat) :
    sumBytes (fun b => packedOf (packNext d s) b * f b) = sumBytes (fun b => packedOf s b * f b) + f d := by
  have hsum := sumBytes_change (f := fun b => packedOf (packNext d s) b * f b) (g := fun b => packedOf s b * f b) d
    fun b hb => by simp [packedOf_packNext hd howed, hb]
  simp only [packedOf_packNext hd howed, if_true, Nat.add_mul, Nat.one_mul] at hsum ⊢
  omega

theorem inv_pack (h : Inv s) (hs : s.phase = .packing) (hd : readAt s.remain d ≠ 0) : Inv (packNext d s) := by
  have hb := built_of_packing h hs
  have hsum := sum_packedOf_packNext hd (hb.owed d)
  have hpacked : (packNext d s).packedIn.toNat = s.packedIn.toNat + 1 := by
    have hlt := packedIn_lt_origSize h hs hd
    have := s.origSize.isLt
    exact toNat_add_one (by omega)
  refine inv_in_packing hs h.counted ?_ ?_ (h.clean (by simp [hs]))
  · refine built_of_pass_two hb rfl
      (fun b => (Nat.le_of_add_right_le (toNat_remain_packNext hd b).le).trans (hb.owed b)) ?_
    have hone := hsum fun _ => 1
    simp only [Nat.mul_one] at hone
    rw [hpacked, hb.packed, hone]
  · obtain ⟨-, -, -, -, hleft⟩ := packNext_spec d s
    rw [packNext_code, hsum, Nat.add_mod, ← bits_of_packing h hs, Nat.add_mod_mod, hleft]

/-- R253: when as many bytes were presented as counted, none is owed. -/
theorem remain_eq_zero (h : Inv s) (hs : s.phase = .packing) (hall : s.packedIn = s.origSize) (b : Byte) :
    readAt s.remain b = 0 := by
  by_contra hb
  have := packedIn_lt_origSize h hs hb
  rw [hall] at this
  omega

/-- R253: then the buffered bits and the padding make whole bytes. -/
theorem length_bitBuf_add_padding (h : Inv s) (hs : s.phase = .packing) (hall : s.packedIn = s.origSize) :
    (s.bitBuf.length + s.padding.toNat) % 8 = 0 := by
  have hb := built_of_packing h hs
  have hpacked : ∀ b, packedOf s b = (readAt s.freq b).toNat := fun b => by
    simp [packedOf, remain_eq_zero h hs hall b]
  have hbits := bits_of_packing h hs
  have htotal := hb.total
  have hwhole := hb.wholeBytes
  simp only [hpacked] at hbits
  unfold totalCodeBits at htotal
  omega

/-- R253: the state FINISH leaves. -/
def finishNext (s : State) : State := { push (zeros s.padding.toNat) s with phase := .done }

/-- R250, R253: what FINISH emits and what it leaves in BITBUF. -/
theorem finishNext_spec (s : State) :
    ∃ bytes, (finishNext s).out = s.out ++ bytes ∧
      bytes.flatMap byteBits ++ (finishNext s).bitBuf = s.bitBuf ++ zeros s.padding.toNat ∧
      bytes.length = (s.bitBuf.length + s.padding.toNat) / 8 ∧
      (finishNext s).bitBuf.length = (s.bitBuf.length + s.padding.toNat) % 8 := by
  have h := push_spec (zeros s.padding.toNat) s
  rwa [zeros, List.length_replicate] at h

theorem exec_finishNext (hs : s.phase = .packing) (h : s.packedIn = s.origSize) :
    exec .finish s = .next (finishNext s) := exec_finish hs h

/-- R253: FINISH leaves no bit. -/
theorem finishNext_bitBuf (h : Inv s) (hs : s.phase = .packing) (hall : s.packedIn = s.origSize) :
    (finishNext s).bitBuf = [] := by
  obtain ⟨-, -, -, -, hleft⟩ := finishNext_spec s
  exact List.eq_nil_of_length_eq_zero (hleft.trans (length_bitBuf_add_padding h hs hall))

theorem inv_finish (h : Inv s) (hs : s.phase = .packing) (hall : s.packedIn = s.origSize) : Inv (finishNext s) :=
  inv_in_done rfl h.counted (built_of_frame (built_of_packing h hs) rfl)
    ⟨remain_eq_zero (s := s) h hs hall, hall, finishNext_bitBuf h hs hall⟩ (h.clean (by simp [hs]))

end PackKeepsInvariant

/-! SUPPORT. Every command and every step keeps the invariant (spec/10_state.md R44). -/

section StepsKeepInvariant
variable {c : Instr} {cs : List Instr} {s t : State}

theorem effect_keeps_inv (hs : Inv s) (hl : legal c s.phase = true) (h : effect c s = .ok t) : Inv t := by
  cases c with
  | nop => cases h; exact hs
  | start => cases h; exact inv_of_runCleared (runCleared_startRun s) (.inr rfl)
  | count d =>
    obtain ⟨hlim, rfl⟩ := countBody_ok.1 h
    exact inv_count hs (legal_count_iff.1 hl) hlim d
  | build =>
    obtain ⟨hn, -, -, rfl⟩ := buildBody_ok.1 h
    exact inv_build hs (legal_build_iff.1 hl) hn
  | pack d =>
    obtain ⟨hd, rfl⟩ := packBody_ok.1 h
    exact inv_pack hs (legal_pack_iff.1 hl) hd
  | finish =>
    obtain ⟨hall, rfl⟩ := finishBody_ok.1 h
    exact inv_finish hs (legal_finish_iff.1 hl) hall
  | ioerr => cases h

theorem exec_keeps_inv (hs : Inv s) (h : exec c s = .next t) : Inv t := by
  rcases exec_cases h with ⟨-, -, rfl⟩ | ⟨code, hcode, hne, rfl, -⟩ | ⟨hl, hok, -⟩
  · exact hs
  · exact inv_raiseError hs hne hcode
  · exact effect_keeps_inv hs hl hok

theorem step_keeps_inv (hs : Inv s) (h : step s = .next t) : Inv t := by
  rcases step_cases h with
    ⟨-, rfl⟩ | ⟨rest, -, rfl⟩ | ⟨_, _, _, -, rfl⟩ | ⟨w, rest, -, -, hne, rfl⟩ | ⟨w, rest, c, -, -, he⟩
  · exact hs
  · exact inv_of_runCleared (runCleared_resetBlock _) (.inl rfl)
  · exact inv_host hs _ _
  · exact inv_raiseError (s := taken rest s) (inv_host hs _ _) hne (by decide)
  · exact exec_keeps_inv (s := taken rest s) (inv_host hs _ _) he

theorem runCommands_keeps_inv (hs : Inv s) (h : runCommands cs s = .next t) : Inv t := by
  induction cs generalizing s with
  | nil => cases h; exact hs
  | cons c cs ih =>
    obtain ⟨u, hu⟩ := exec_answers c s
    rw [runCommands_cons hu] at h
    exact ih (exec_keeps_inv hs hu) h

end StepsKeepInvariant

/-! SUPPORT. What the invariant says of the bytes PACK and FINISH emit (spec/45_bit_packer.md sections 2 and 3). -/

section EmittedBytes
variable {d : Byte} {s t : State}

/-- R252: at most 7 buffered bits and a code of at most 45 make at most 6 bytes. -/
theorem length_packNext_out_le (h : Inv s) (hs : s.phase = .packing) :
    (packNext d s).out.length ≤ s.out.length + 6 := by
  obtain ⟨bytes, hout, -, hbytes, -⟩ := packNext_spec d s
  have hcode : codeLen s.code d ≤ 45 :=
    (built_of_packing h hs).code ▸ codeLen_codeOf_le_45 (counts_le_of_inv h) d
  have hbuf := h.buffer
  rw [hout, List.length_append]
  omega

/-- R22, R35: in DONE with BITBUF empty STATUS reads 0x13. -/
theorem statusWord_done_empty (hs : s.phase = .done) (hb : s.bitBuf = []) : statusWord s = 0x00000013#32 := by
  simp [statusWord, bitCount, flagDone, flagErr, hs, hb, Phase.bits]

end EmittedBytes

/-! The statements about the invariant, and those it bears on COUNT, PACK and FINISH. -/

section SettledInvariant

/-- Settles O39: the reset state is cleared. -/
theorem invariantHoldsAtReset : Obligations.InvariantHoldsAtReset :=
  inv_of_runCleared runCleared_reset (.inl rfl)

/-- Settles O40: `step_keeps_inv`, by each command's own effect. -/
theorem invariantKeptByEveryStep : Obligations.InvariantKeptByEveryStep :=
  fun _ _ => step_keeps_inv

/-- Settles O25: no count exceeds ORIG_SIZE, which is below its limit. -/
theorem countNeverWraps : Obligations.CountNeverWraps := by
  intro d s h hs hlim
  obtain ⟨hfreq, hsize⟩ := count_exact h hlim d
  refine ⟨_, exec_count hs hlim, ?_, hsize⟩
  rw [readAt_writeAt, if_pos rfl, hfreq]

/-- Settles O32: the depth bound and R250's count of whole bytes. -/
theorem packEmitsAtMostSixBytes : Obligations.PackEmitsAtMostSixBytes := by
  intro d s t h hs ht
  by_cases hd : readAt s.remain d = 0
  · rw [exec_pack_mismatch hs hd] at ht
    cases ht
    exact Nat.le_add_right _ _
  · rw [exec_packNext hs hd] at ht
    cases ht
    exact length_packNext_out_le h hs

/-- Settles O30: FINISH pushes the padding, which under the invariant fills the last byte. -/
theorem finishPadsLastByte : Obligations.FinishPadsLastByte := by
  refine ⟨rfl, fun s => ⟨fun hs hall => ?_, fun hs hne => ?_, fun hs he => ?_⟩⟩
  · obtain ⟨bytes, hout, hbits, hbytes, hleft⟩ := finishNext_spec s
    refine ⟨finishNext s, bytes, exec_finishNext hs hall, rfl, hout, hbits, by omega, rfl, fun h => ?_⟩
    have hempty := finishNext_bitBuf h hs hall
    refine ⟨hempty, ?_, statusWord_done_empty rfl hempty⟩
    have hwhole := length_bitBuf_add_padding h hs hall
    have hbuf := h.buffer
    have hpad := s.padding.isLt
    rw [hbytes]
    by_cases hp : s.padding = 0
    · have hzero : s.padding.toNat = 0 := congrArg BitVec.toNat hp
      rw [if_pos hp]
      omega
    · have hpos : s.padding.toNat ≠ 0 := fun he => hp (BitVec.eq_of_toNat_eq he)
      rw [if_neg hp]
      omega
  · rw [exec_finish_mismatch hs hne, raiseError, hs]
    rfl
  · exact exec_illegal he (Bool.eq_false_iff.2 (legal_finish_iff.not.2 hs))

end SettledInvariant
end Sys2Proof.Laws

namespace Sys2Proof.Laws

open Sys2Proof.Machine

/-! SUPPORT. A counting pass (spec/41_frequency_counter.md R150 to R152). -/

section CountingPass
variable {s u : State} {S T : List Byte}

/-- The counts after one COUNT for each byte of S. -/
def countInto (freq : Table Word) (S : List Byte) : Table Word :=
  S.foldl (fun freq d => writeAt freq d (readAt freq d + 1)) freq

theorem readAt_countInto (freq : Table Word) (S : List Byte) (b : Byte) :
    readAt (countInto freq S) b = readAt freq b + BitVec.ofNat 32 (S.count b) := by
  induction S generalizing freq with
  | nil => simp [countInto]
  | cons d S ih =>
    have h : countInto freq (d :: S) = countInto (writeAt freq d (readAt freq d + 1)) S := rfl
    rw [h, ih, readAt_writeAt, List.count_cons]
    by_cases hb : b = d
    · subst hb
      simp only [if_true, beq_self_eq_true, BitVec.ofNat_add, BitVec.add_assoc]
      rw [BitVec.add_comm 1]
      rfl
    · simp [hb, Ne.symm hb]

/-- R150: while ORIG_SIZE stays within its limit every COUNT of a pass completes. -/
theorem runCommands_counts (hs : u.phase = .counting) (hlen : u.origSize.toNat + S.length < 2 ^ 32) :
    runCommands (S.map .count) u =
      .next { u with freq := countInto u.freq S, origSize := u.origSize + BitVec.ofNat 32 S.length } := by
  induction S generalizing u with
  | nil => simp [runCommands, countInto]
  | cons d S ih =>
    rw [List.length_cons] at hlen
    have hlim : u.origSize ≠ Config.maxInputLen := by
      intro h
      rw [h] at hlen
      simp only [Config.maxInputLen, BitVec.toNat_ofNat] at hlen
      omega
    have hsize := toNat_add_one (toNat_lt_of_ne_max hlim)
    have hrest := ih (u := { u with freq := writeAt u.freq d (readAt u.freq d + 1), origSize := u.origSize + 1 }) hs
      (hsize ▸ by omega)
    have hsum : u.origSize + BitVec.ofNat 32 (S.length + 1) = u.origSize + 1 + BitVec.ofNat 32 S.length := by
      rw [Nat.add_comm, BitVec.ofNat_add, ← BitVec.add_assoc]
      rfl
    rw [List.map_cons, runCommands_cons (exec_count hs hlim), hrest, List.length_cons, hsum]
    rfl

/-- The state after pass 1. -/
def passOne (s : State) (S : List Byte) : State :=
  { startRun s with freq := countInto (fillTable 0) S, origSize := BitVec.ofNat 32 S.length }

theorem runCommands_passOne (s : State) (hlen : S.length < 2 ^ 32) :
    runCommands (.start :: S.map .count) s = .next (passOne s S) := by
  rw [runCommands_cons (exec_start s), runCommands_counts rfl (by simpa using hlen)]
  simp [passOne]

theorem toNat_passOne_freq (s : State) (hlen : S.length < 2 ^ 32) (b : Byte) :
    (readAt (passOne s S).freq b).toNat = S.count b := by
  have hle := List.count_le_length (a := b) (l := S)
  have hlt : S.count b < 2 ^ 32 := hle.trans_lt hlen
  simpa [passOne, readAt_countInto] using hlt

theorem toNat_passOne_origSize (s : State) (hlen : S.length < 2 ^ 32) :
    (passOne s S).origSize.toNat = S.length :=
  Nat.mod_eq_of_lt hlen

/-- R151: a byte value is counted when S holds it. -/
theorem passOne_counted_iff (s : State) (hlen : S.length < 2 ^ 32) (b : Byte) :
    readAt (passOne s S).freq b ≠ 0 ↔ b ∈ S := by
  have hcount := toNat_passOne_freq s hlen b
  rw [← List.count_pos_iff, ← hcount, Nat.pos_iff_ne_zero, ne_eq, ne_eq, not_iff_not]
  exact ⟨fun h => by rw [h]; rfl, fun h => BitVec.eq_of_toNat_eq h⟩

theorem nsym_passOne (s : State) (hlen : S.length < 2 ^ 32) : nsym (passOne s S).freq = S.toFinset.card := by
  rw [nsym_eq_card]
  refine congrArg Finset.card (Finset.ext fun b => ?_)
  simpa using passOne_counted_iff s hlen b

/-- R152: the order of S does not matter. -/
theorem passOne_perm (s : State) (h : T.Perm S) : passOne s T = passOne s S := by
  have hfreq : countInto (fillTable 0) T = countInto (fillTable 0) S := table_ext fun b => by
    rw [readAt_countInto, readAt_countInto, h.count_eq]
  rw [passOne, passOne, hfreq, h.length_eq]

end CountingPass

/-! SUPPORT. Pass 2, when it presents only bytes that are owed (spec/45_bit_packer.md R252). -/

section PackingPass
variable {u v w : State} {d : Byte} {T : List Byte}

theorem tablesKept_trans (h : TablesKept u v) (h' : TablesKept v w) : TablesKept u w := by
  obtain ⟨h₁, h₂, h₃, h₄, h₅, h₆, h₇, h₈⟩ := h
  obtain ⟨h₁', h₂', h₃', h₄', h₅', h₆', h₇', h₈'⟩ := h'
  exact ⟨h₁'.trans h₁, h₂'.trans h₂, h₃'.trans h₃, h₄'.trans h₄, h₅'.trans h₅, h₆'.trans h₆, h₇'.trans h₇, h₈'.trans h₈⟩

/-- What v is, after a PACK of each byte of T in u: the bytes emitted and the buffered bits are those of u followed by
T's codes. -/
structure Presented (T : List Byte) (u v : State) : Prop where
  phase : v.phase = .packing
  tables : TablesKept u v
  packedIn : v.packedIn = u.packedIn + BitVec.ofNat 32 T.length
  bits : ∃ bytes, v.out = u.out ++ bytes ∧
    bytes.flatMap byteBits ++ v.bitBuf = u.bitBuf ++ T.flatMap fun b => readAt u.code b

theorem presented_nil (hs : u.phase = .packing) : Presented [] u u where
  phase := hs
  tables := tablesKept_refl u
  packedIn := by simp
  bits := ⟨[], by simp⟩

theorem presented_cons (h : Presented T (packNext d u) v) : Presented (d :: T) u v where
  phase := h.phase
  tables := tablesKept_trans (v := packNext d u) (tablesKept_refl u) h.tables
  packedIn := by
    rw [h.packedIn, packNext_packedIn, List.length_cons, Nat.add_comm T.length, BitVec.ofNat_add, ← BitVec.add_assoc]
    rfl
  bits := by
    obtain ⟨bytes, hout, hbits, -⟩ := packNext_spec d u
    obtain ⟨more, hout', hbits'⟩ := h.bits
    refine ⟨bytes ++ more, by rw [hout', hout, List.append_assoc], ?_⟩
    rw [List.flatMap_append, List.append_assoc, hbits', ← List.append_assoc, hbits, List.flatMap_cons,
      List.append_assoc, packNext_code]

/-- After a PACK of d, one fewer d is owed for the rest of the pass. -/
theorem count_le_packNext {b : Byte} (hd : readAt u.remain d ≠ 0) :
    T.count b ≤ (readAt (packNext d u).remain b).toNat ↔ (d :: T).count b ≤ (readAt u.remain b).toNat := by
  have hremain := toNat_remain_packNext hd b
  rw [List.count_cons]
  by_cases hb : b = d
  · subst hb
    simp only [if_true, beq_self_eq_true] at hremain ⊢
    omega
  · have hbeq : (d == b) = false := beq_eq_false_iff_ne.2 (Ne.symm hb)
    simp only [hb, hbeq, if_false, Bool.false_eq_true] at hremain ⊢
    omega

theorem runCommands_packs (hs : u.phase = .packing) (howed : ∀ b, T.count b ≤ (readAt u.remain b).toNat) :
    ∃ v, runCommands (T.map .pack) u = .next v ∧ Presented T u v := by
  induction T generalizing u with
  | nil => exact ⟨u, rfl, presented_nil hs⟩
  | cons d T ih =>
    have hd : readAt u.remain d ≠ 0 := by
      intro h
      have := howed d
      rw [h, List.count_cons_self] at this
      exact absurd this (by simp)
    obtain ⟨v, hv, hpres⟩ := ih (u := packNext d u) hs fun b => (count_le_packNext hd).2 (howed b)
    exact ⟨v, (runCommands_cons (exec_packNext hs hd)).trans hv, presented_cons hpres⟩

end PackingPass

/-! SUPPORT. A pass 2 that goes wrong (spec/20_memory.md section 6). -/

section Mismatch
variable {u v : State} {c : Instr} {cs : List Instr} {T : List Byte}

/-- The run has failed in PACKING with INPUT_MISMATCH. -/
def Mismatched (v : State) : Prop := v.phase = .error ∧ v.errCode = .inputMismatch ∧ v.errPhase = .packing

theorem mismatched_raiseError {w : Word} (hs : u.phase = .packing) : Mismatched (raiseError .inputMismatch w u) :=
  ⟨rfl, rfl, hs⟩

/-- R120: in ERROR nothing but START is performed. -/
theorem runCommands_ignored (hs : u.phase = .error) (hcs : ∀ c ∈ cs, c ≠ .start) : runCommands cs u = .next u := by
  induction cs with
  | nil => rfl
  | cons c cs ih =>
    rw [runCommands_cons (exec_ignored hs (hcs c (by simp)))]
    exact ih fun c' hc' => hcs c' (by simp [hc'])

/-- R252: a byte value presented more often than it was counted fails. -/
theorem runCommands_packs_mismatch (hs : u.phase = .packing) (h : ∃ b, ¬ T.count b ≤ (readAt u.remain b).toNat) :
    ∃ v, runCommands (T.map .pack) u = .next v ∧ Mismatched v := by
  induction T generalizing u with
  | nil => simp at h
  | cons d T ih =>
    by_cases hd : readAt u.remain d = 0
    · refine ⟨_, ?_, mismatched_raiseError (w := encode (.pack d)) hs⟩
      rw [List.map_cons, runCommands_cons (exec_pack_mismatch hs hd)]
      exact runCommands_ignored rfl (by simp)
    · obtain ⟨b, hb⟩ := h
      obtain ⟨v, hv, hmis⟩ := ih (u := packNext d u) hs ⟨b, (count_le_packNext hd).not.2 hb⟩
      exact ⟨v, (runCommands_cons (exec_packNext hs hd)).trans hv, hmis⟩

end Mismatch

/-! SUPPORT. A run up to pass 2 (spec/70_reset_and_hazards.md R342). -/

section TwoPasses
variable {s : State} {S T : List Byte}

/-- The state in which pass 2 begins. -/
def passTwo (s : State) (S : List Byte) : State :=
  buildResult (treeBuild (passOne s S).freq).1 (codeOf (passOne s S).freq) (passOne s S)

theorem nsym_passOne_ne_zero (s : State) (hne : S ≠ []) (hlen : S.length < 2 ^ 32) : nsym (passOne s S).freq ≠ 0 := by
  obtain ⟨b, hb⟩ := List.exists_mem_of_ne_nil S hne
  exact fun h => (passOne_counted_iff s hlen b).2 hb ((nsym_eq_zero_iff _).1 h b)

theorem runCommands_twoPass (hne : S ≠ []) (hlen : S.length < 2 ^ 32) :
    runCommands (twoPass S T) s = runCommands (T.map .pack ++ [.finish]) (passTwo s S) := by
  rw [twoPass, List.append_assoc, runCommands_append (runCommands_passOne s hlen), List.cons_append,
    runCommands_cons (exec_build rfl (nsym_passOne_ne_zero s hne hlen))]
  rfl

/-- BUILD owes each byte value as often as S holds it. -/
theorem toNat_passTwo_remain (s : State) (hlen : S.length < 2 ^ 32) (b : Byte) :
    (readAt (passTwo s S).remain b).toNat = S.count b :=
  toNat_passOne_freq s hlen b

/-- R253: after a pass of at most 2^32 - 1 bytes FINISH compares the lengths of the two passes. -/
theorem packedIn_eq_origSize_iff {v : State} (h : Presented T (passTwo s S) v) (hT : T.length < 2 ^ 32)
    (hS : S.length < 2 ^ 32) : v.packedIn = v.origSize ↔ T.length = S.length := by
  obtain ⟨-, hsize, -⟩ := h.tables
  have hstart : (passTwo s S).packedIn = 0#32 := rfl
  have horig : (passTwo s S).origSize = BitVec.ofNat 32 S.length := rfl
  rw [h.packedIn, hsize, hstart, horig, BitVec.zero_add, ← BitVec.toNat_inj, BitVec.toNat_ofNat, BitVec.toNat_ofNat,
    Nat.mod_eq_of_lt hT, Nat.mod_eq_of_lt hS]

/-- A list that holds no value more often than S is a reordering of S if it is as long. -/
theorem perm_of_count_le (h : ∀ b, T.count b ≤ S.count b) (hlen : T.length = S.length) : T.Perm S :=
  (List.subperm_ext_iff.2 fun b _ => h b).perm_of_length_le hlen.ge

theorem length_le_of_count_le (h : ∀ b, T.count b ≤ S.count b) : T.length ≤ S.length :=
  (List.subperm_ext_iff.2 fun b _ => h b).length_le

end TwoPasses

/-! SUPPORT. The payload of a run (spec/45_bit_packer.md R256). -/

section Payload
variable {code : Table Bits} {padding : Nat} {T : List Byte} {bytes : List Byte}

/-- Cutting the bits of some bytes into eights gives the bytes back. -/
theorem map_bitsToByte_flatMap (bytes : List Byte) :
    ((List.range bytes.length).map fun j => bitsToByte (((bytes.flatMap byteBits).drop (8 * j)).take 8)) = bytes := by
  induction bytes with
  | nil => rfl
  | cons v bytes ih =>
    have hhead : (byteBits v ++ bytes.flatMap byteBits).take 8 = byteBits v := List.take_left' rfl
    have htail (j : Nat) : (byteBits v ++ bytes.flatMap byteBits).drop (8 * (j + 1)) =
        (bytes.flatMap byteBits).drop (8 * j) := by
      rw [Nat.mul_succ, Nat.add_comm, ← List.drop_drop, List.drop_left' (length_byteBits v)]
    rw [List.length_cons, List.range_succ_eq_map, List.map_cons, List.map_map, List.flatMap_cons]
    simp only [Function.comp_def, Nat.succ_eq_add_one, htail, ih, Nat.mul_zero, List.drop_zero, hhead,
      bitsToByte_byteBits]

theorem length_flatMap_byteBits (bytes : List Byte) : (bytes.flatMap byteBits).length = 8 * bytes.length := by
  simp [List.length_flatMap, Nat.mul_comm]

/-- R256: bytes whose bits are the closed form's are the payload. -/
theorem payload_eq (h : bytes.flatMap byteBits = payloadBits code padding T) : payload code padding T = bytes := by
  rw [payload, ← h, length_flatMap_byteBits, Nat.mul_div_cancel_left _ (by decide)]
  exact map_bitsToByte_flatMap bytes

/-- A sum over a list, by how often each byte value stands in it. -/
theorem sum_map_eq_sumBytes (T : List Byte) (f : Byte → Nat) :
    (T.map f).sum = sumBytes fun b => T.count b * f b := by
  rw [sumBytes_eq_sum, Finset.sum_list_map_count]
  refine Finset.sum_subset (fun b _ => by simp) fun b _ hb => ?_
  rw [List.mem_toFinset] at hb
  simp [List.count_eq_zero_of_not_mem hb]

/-- R256: the closed form has a code for each byte, and the padding. -/
theorem length_payloadBits (code : Table Bits) (padding : Nat) (T : List Byte) :
    (payloadBits code padding T).length = sumBytes (fun b => T.count b * codeLen code b) + padding := by
  rw [← sum_map_eq_sumBytes, payloadBits, List.length_append, List.length_flatMap, zeros, List.length_replicate]
  rfl

end Payload

/-! SUPPORT. A run whose pass 2 presents pass 1 again (spec/45_bit_packer.md section 4). -/

section CompleteRun
variable {s v : State} {S T : List Byte}

/-- R253: the run ends in the state FINISH leaves. -/
theorem runCommands_twoPass_perm (hne : S ≠ []) (hlen : S.length < 2 ^ 32) (hT : T.Perm S) :
    ∃ v, runCommands (twoPass S T) s = .next (finishNext v) ∧ Presented T (passTwo s S) v ∧
      v.packedIn = v.origSize := by
  obtain ⟨v, hv, hpres⟩ := runCommands_packs (T := T) (u := passTwo s S) rfl fun b => by
    rw [toNat_passTwo_remain s hlen, hT.count_eq]
  have hall := (packedIn_eq_origSize_iff hpres (hT.length_eq ▸ hlen) hlen).2 hT.length_eq
  refine ⟨v, ?_, hpres, hall⟩
  rw [runCommands_twoPass hne hlen, runCommands_append hv]
  exact runCommands_cons (exec_finishNext hpres.phase hall)

/-- R44: what a run reaches meets the invariant, whatever state START found. -/
theorem inv_of_run {cs : List Instr} (h : runCommands (.start :: cs) s = .next v) : Inv v := by
  rw [runCommands_cons (exec_start s)] at h
  exact runCommands_keeps_inv (inv_of_runCleared (runCleared_startRun s) (.inr rfl)) h

/-- R256: with BITBUF empty at the end, the run has emitted the header and the payload. -/
theorem finishNext_out (hpres : Presented T (passTwo s S) v) (hempty : (finishNext v).bitBuf = []) :
    (finishNext v).out = s.out ++ (headerBytes v.code (nsym v.freq) v.padding.toNat ++
      payload v.code v.padding.toNat T) := by
  obtain ⟨hfreq, -, hcode, -, -, -, hpadding, -⟩ := hpres.tables
  obtain ⟨bytes, hout, hbits⟩ := hpres.bits
  obtain ⟨last, hout', hlast, -⟩ := finishNext_spec v
  have hstart : (passTwo s S).out = s.out ++ headerBytes (passTwo s S).code (nsym (passTwo s S).freq)
      (passTwo s S).padding.toNat := buildResult_out
  have hpayload : payload v.code v.padding.toNat T = bytes ++ last := by
    refine payload_eq ?_
    rw [hempty, List.append_nil] at hlast
    rw [List.flatMap_append, hlast, ← List.append_assoc, hbits, payloadBits, hcode]
    rfl
  rw [hout', hout, hstart, hpayload, hfreq, hcode, hpadding]
  simp only [List.append_assoc]

end CompleteRun

/-! The statements about runs. -/

section SettledRuns

/-- Settles O54: `passOne`, which depends on S by its counts and its length only. -/
theorem countPassCountsInput : Obligations.CountPassCountsInput := by
  intro s S hlen
  refine ⟨passOne s S, runCommands_passOne s hlen, rfl, toNat_passOne_freq s hlen, toNat_passOne_origSize s hlen,
    nsym_passOne s hlen, rfl, fun T hT => ?_⟩
  rw [runCommands_passOne s (hT.length_eq ▸ hlen), passOne_perm s hT]

/-- Settles O57: START counts nothing, BUILD raises EMPTY_INPUT, and FINISH is ignored. -/
theorem emptyInputRunFails : Obligations.EmptyInputRunFails := by
  intro s
  have hn : nsym (startRun s).freq = 0 := (nsym_eq_zero_iff _).2 (runCleared_startRun s).freq
  refine ⟨raiseError .emptyInput (encode .build) (startRun s), ?_, rfl, rfl, rfl, rfl, rfl⟩
  exact (runCommands_cons (exec_start s)).trans <| (runCommands_cons (exec_build_empty rfl hn)).trans <|
    runCommands_ignored rfl (by simp)

/-- Settles O56: a byte too many is refused by PACK, and a pass too short by FINISH. -/
theorem mismatchedPassTwoIsDetected : Obligations.MismatchedPassTwoIsDetected := by
  intro s S T hne hlen hT
  have hmis : ∃ t, runCommands (T.map .pack ++ [.finish]) (passTwo s S) = .next t ∧ Mismatched t := by
    by_cases howed : ∀ b, T.count b ≤ (readAt (passTwo s S).remain b).toNat
    · obtain ⟨v, hv, hpres⟩ := runCommands_packs rfl howed
      have hle : ∀ b, T.count b ≤ S.count b := fun b => toNat_passTwo_remain s hlen b ▸ howed b
      have hshort : v.packedIn ≠ v.origSize := fun h => hT <| perm_of_count_le hle <|
        (packedIn_eq_origSize_iff hpres ((length_le_of_count_le hle).trans_lt hlen) hlen).1 h
      refine ⟨_, ?_, mismatched_raiseError (w := encode .finish) hpres.phase⟩
      rw [runCommands_append hv]
      exact runCommands_cons (exec_finish_mismatch hpres.phase hshort)
    · obtain ⟨v, hv, hmis⟩ := runCommands_packs_mismatch rfl (not_forall.1 howed)
      refine ⟨v, ?_, hmis⟩
      rw [runCommands_append hv]
      exact runCommands_ignored hmis.1 (by simp)
  obtain ⟨t, ht, hphase, hcode, herr⟩ := hmis
  exact ⟨t, (runCommands_twoPass hne hlen).trans ht, hphase, hcode, herr, by simp [outputValid, hphase]⟩

/-- Settles O55: the final state meets the invariant, which gives its tables and lengths; its bytes are those of the
header and of the bits pushed. -/
theorem twoPassRunEncodes : Obligations.TwoPassRunEncodes := by
  intro s S T hne hlen hT
  obtain ⟨v, hrun, hpres, -⟩ := runCommands_twoPass_perm (s := s) hne hlen hT
  have hinv : Inv (finishNext v) := inv_of_run hrun
  have hst : stage (finishNext v) = .done := rfl
  have hbuilt := hinv.built (.inr hst)
  obtain ⟨-, -, hempty⟩ := hinv.finished hst
  have hout := finishNext_out hpres hempty
  obtain ⟨hfreq, -⟩ := hpres.tables
  have hcount : ∀ b, (readAt (finishNext v).freq b).toNat = S.count b := fun b => by
    have : (finishNext v).freq = (passOne s S).freq := hfreq
    rw [this, toNat_passOne_freq s hlen]
  have hsuffix : runOutput s (finishNext v) = headerBytes v.code (nsym v.freq) v.padding.toNat ++
      payload v.code v.padding.toNat T := by
    rw [runOutput, hout, List.drop_left]
  refine ⟨finishNext v, hrun, rfl, rfl, hcount, hbuilt.code, hsuffix ▸ hout, hsuffix, ?_, ?_, ?_⟩
  · rw [hbuilt.header, hbuilt.code, length_headerBytes, length_headerEntries_codeOf]
    omega
  · have hbits : (payloadBits (finishNext v).code (finishNext v).padding.toNat T).length =
        (finishNext v).payloadBytes.toNat * 8 := by
      rw [length_payloadBits, hbuilt.wholeBytes, hbuilt.total, totalCodeBits]
      simp only [hcount, hT.count_eq]
    rw [payload, List.length_map, List.length_range, hbits, Nat.mul_div_cancel _ (by decide)]
  · exact (errorRegistersReadBack.2 _ hinv (by simp [finishNext])).1

end SettledRuns
end Sys2Proof.Laws
